-- ==== Sys2Proof/Word.lean ====
section
/-!
DEFINITION. The bit-vector types of the machine and the six unit letters of a slot
(spec/00_scope.md rules R6 to R8, spec/30_encoding.md rule R62).
-/

namespace Sys2Proof

/-- A 64-bit value: general, branch, application and control registers and addresses (R10, R15, R16, R18, R40). -/
abbrev Word := BitVec 64

/-- A byte, the unit of memory (R40). -/
abbrev Byte := BitVec 8

/-- The 82 bits of a floating-point register (R12). -/
abbrev FpWord := BitVec 82

/-- The 41 bits of an instruction slot (R61, R72). -/
abbrev SlotBits := BitVec 41

/-- The 128 bits of a bundle (R61). -/
abbrev BundleBits := BitVec 128

/-- A template code, 00 to 1F (R65). -/
abbrev Template := BitVec 5

/-- A predicate number as an instruction names it, the field `qp` (R72). -/
abbrev PredNum := BitVec 6

/-- A slot number, 0, 1 or 2, also the slot index `ri` (R19, R60). -/
abbrev SlotIx := Fin 3

/-- The unit type of a slot: the five slot types of R62 and the X slot that always follows an L slot. -/
inductive UnitType where
  | m | i | f | b | l | x
  deriving DecidableEq, Repr

end Sys2Proof
end

