-- ==== Sys2Proof/Config.lean ====
section
/-!
DEFINITION. What the hardware fixes: the stated platform parameters of both processors (spec/00_scope.md
rule R6, spec/20_memory.md rules R47 and R48, spec/70_reset_and_hazards.md rules R147 to R151) and the open
parameters (rule R7). No meaning reads the platform data (R152). The constants with no body are free: nothing can be
proved of their value.
-/

namespace Sys2Proof.Config

/-- The parameter `VARIANT` of R2: which column of the table of R6 applies. -/
inductive Variant where
  | itanium | itanium2
  deriving DecidableEq, Repr

/-- The default of `VARIANT` (R6, R7). -/
def defaultVariant : Variant := .itanium

/-- The platform data of one variant (table of R6, R47, R137, R151); `none` where the source states nothing. -/
structure Platform where
  /-- Level 1 cache, kilobytes. -/
  l1KB : Nat
  /-- Level 1 is for instructions and data (R47). -/
  l1InstructionsAndData : Option Bool
  /-- Level 2 cache, kilobytes. -/
  l2KB : Nat
  /-- Level 3 cache, megabytes: the product variants the source lists. -/
  l3MB : List Nat
  /-- Level 3 is built in (R47). -/
  l3BuiltIn : Option Bool
  /-- Width of the system bus, bits. -/
  busBits : Nat
  /-- Clock of the system bus, megahertz. -/
  busMHz : Nat
  /-- Bandwidth of the system bus, megabytes a second. -/
  busMBps : Option Nat
  /-- Type of memory. -/
  memoryType : Option String
  /-- Clock of the PCI interface, megahertz. -/
  pciMHz : Nat
  /-- Instructions issued in one clock, at most (R147). -/
  issueWidth : Nat
  /-- Processors in a system, at most (R134). -/
  nprocMax : Option Nat
  /-- The enhanced machine check architecture with extended ECC (R137). -/
  enhancedMachineCheck : Option Bool
  deriving DecidableEq, Repr

/-- The table of R6, by variant. -/
def platform (v : Variant := defaultVariant) : Platform :=
  match v with
  | .itanium =>
    { l1KB := 32, l1InstructionsAndData := none, l2KB := 96, l3MB := [2, 4], l3BuiltIn := none,
      busBits := 64, busMHz := 266, busMBps := none,
      memoryType := some "PC100", pciMHz := 66, issueWidth := 6, nprocMax := some 512,
      enhancedMachineCheck := none }
  | .itanium2 =>
    { l1KB := 32, l1InstructionsAndData := some true, l2KB := 256, l3MB := [6, 4, 3], l3BuiltIn := some true,
      busBits := 128, busMHz := 400, busMBps := some 6400,
      memoryType := none, pciMHz := 66, issueWidth := 6, nprocMax := none,
      enhancedMachineCheck := some true }

/-- The pipeline stages of R148 and R149. -/
inductive Stage where
  | ipg | fet | rot | exp | ren | wld | reg | exe | det | wrb
  deriving DecidableEq, Repr

/-- The stages of each processor, in order (R148, R149). -/
def pipeline (v : Variant := defaultVariant) : List Stage :=
  match v with
  | .itanium => [.ipg, .fet, .rot, .exp, .ren, .wld, .reg, .exe, .det, .wrb]
  | .itanium2 => [.ipg, .rot, .exp, .ren, .reg, .exe, .det, .wrb]

/-- `PIPELINE_STAGES` of R6, as the source states it beside the list of stages. -/
def pipelineStages (v : Variant := defaultVariant) : Nat :=
  match v with
  | .itanium => 10
  | .itanium2 => 8

/-- `NPROC` of R7: the model has one processor (R134). -/
def nproc : Nat := 1

/-- `DATA_BE` of R7, the byte order of data accesses: open, read by no rule (R43). A FREE VALUE. -/
opaque dataBigEndian : Bool

/-- `IMPL_VA_MSB` of R7: open, read by no rule. A FREE VALUE. -/
opaque implVaMsb : Nat

/-- `IMPL_PA_MSB` of R7: open, read by no rule. A FREE VALUE. -/
opaque implPaMsb : Nat

/-- The 82 bits of the hardwired +0.0 of FR0, which the spec does not fix (R13). A FREE VALUE (log entry 8). -/
opaque fpPlusZero : FpWord

/-- The 82 bits of the hardwired +1.0 of FR1, which the spec does not fix (R13). A FREE VALUE (log entry 8). -/
opaque fpPlusOne : FpWord

end Sys2Proof.Config
end

