-- ==== Sys2Proof/Syntax.lean ====
section
/-!
DEFINITION. The instructions: one constructor for each of the ten rows of spec/opcode_table.json, with the operands
of spec/41_nop_break.md rules R101 to R110, and how each is written (spec/30_encoding.md rules R78, R79).
-/

namespace Sys2Proof

/-- The admitted instructions (R5, R73): `qp` is the qualifying predicate number, `imm` the immediate. -/
inductive Instr where
  /-- `nop.m imm21` (R101) -/
  | nopM (qp : PredNum) (imm : BitVec 21)
  /-- `nop.i imm21` (R102) -/
  | nopI (qp : PredNum) (imm : BitVec 21)
  /-- `nop.f imm21` (R103) -/
  | nopF (qp : PredNum) (imm : BitVec 21)
  /-- `nop.b imm21` (R104) -/
  | nopB (qp : PredNum) (imm : BitVec 21)
  /-- `nop.x imm62` (R105) -/
  | nopX (qp : PredNum) (imm : BitVec 62)
  /-- `break.m imm21` (R106) -/
  | breakM (qp : PredNum) (imm : BitVec 21)
  /-- `break.i imm21` (R107) -/
  | breakI (qp : PredNum) (imm : BitVec 21)
  /-- `break.f imm21` (R108) -/
  | breakF (qp : PredNum) (imm : BitVec 21)
  /-- `break.b imm21` (R109) -/
  | breakB (qp : PredNum) (imm : BitVec 21)
  /-- `break.x imm62` (R110) -/
  | breakX (qp : PredNum) (imm : BitVec 62)
  deriving DecidableEq, Repr

/-- The mnemonic, spelled as spec/opcode_table.json spells it (R78). -/
def Instr.mnemonic : Instr → String
  | .nopM _ _ => "nop.m"
  | .nopI _ _ => "nop.i"
  | .nopF _ _ => "nop.f"
  | .nopB _ _ => "nop.b"
  | .nopX _ _ => "nop.x"
  | .breakM _ _ => "break.m"
  | .breakI _ _ => "break.i"
  | .breakF _ _ => "break.f"
  | .breakB _ _ => "break.b"
  | .breakX _ _ => "break.x"

/-- The qualifying predicate number (R100). -/
def Instr.qp : Instr → PredNum
  | .nopM q _ | .nopI q _ | .nopF q _ | .nopB q _ | .nopX q _ => q
  | .breakM q _ | .breakI q _ | .breakF q _ | .breakB q _ | .breakX q _ => q

/-- The unit type of the slot the instruction is decoded in: the `unit` of its row (R80). -/
def Instr.unit : Instr → UnitType
  | .nopM _ _ | .breakM _ _ => .m
  | .nopI _ _ | .breakI _ _ => .i
  | .nopF _ _ | .breakF _ _ => .f
  | .nopB _ _ | .breakB _ _ => .b
  | .nopX _ _ | .breakX _ _ => .x

/-- The immediate as a number: 21 bits, or 62 in an X slot, zero-extended (R74). -/
def Instr.immediate : Instr → Nat
  | .nopM _ v | .nopI _ v | .nopF _ v | .nopB _ v => v.toNat
  | .breakM _ v | .breakI _ v | .breakF _ v | .breakB _ v => v.toNat
  | .nopX _ v | .breakX _ v => v.toNat

/-- An instruction in the syntax of R78: `(pN) mnemonic 0x...`, the predicate left out when it is 0. -/
def Instr.asm (i : Instr) : String :=
  (if i.qp = 0 then "" else "(p" ++ toString i.qp.toNat ++ ") ")
    ++ i.mnemonic ++ " 0x" ++ String.ofList (Nat.toDigits 16 i.immediate)

end Sys2Proof
end

