-- ==== Sys2Proof/WellFormed.lean ====
section
/-!
DEFINITION. Which instruction may stand in which slot (spec/30_encoding.md rules R62, R63, R66, R71), and bundles as
syntax with the check that their slots hold what their template type says. The template types are spelled here by their
twelve names (R66); the codes are in Decode.lean, from the other table (R65).
-/

namespace Sys2Proof

/-- The twelve basic template types of R66; an underscore is a stop inside the bundle (R69). -/
inductive TemplateName where
  | mii | mi_i | mlx | mmi | m_mi | mfi | mmf | mib | mbb | bbb | mmb | mfb
  deriving DecidableEq, Repr

/-- The units of Slot 0, Slot 1 and Slot 2 that the letters of the name spell (R66). -/
def TemplateName.units : TemplateName → UnitType × UnitType × UnitType
  | .mii | .mi_i => (.m, .i, .i)
  | .mlx => (.m, .l, .x)
  | .mmi | .m_mi => (.m, .m, .i)
  | .mfi => (.m, .f, .i)
  | .mmf => (.m, .m, .f)
  | .mib => (.m, .i, .b)
  | .mbb => (.m, .b, .b)
  | .bbb => (.b, .b, .b)
  | .mmb => (.m, .m, .b)
  | .mfb => (.m, .f, .b)

/-- The six instruction types of R63; the long type is written L+X. -/
inductive InstrType where
  | m | i | a | f | b | lx
  deriving DecidableEq, Repr

/-- Which instruction type may be placed in which slot type (R71). -/
def InstrType.mayStandIn : InstrType → UnitType → Bool
  | .m, .m => true
  | .i, .i => true
  | .a, .m => true
  | .a, .i => true
  | .f, .f => true
  | .b, .b => true
  | .lx, .l => true
  | .lx, .x => true
  | _, _ => false

/-- The type of an admitted instruction; none of them is of type A (R71). -/
def Instr.type : Instr → InstrType
  | .nopM _ _ | .breakM _ _ => .m
  | .nopI _ _ | .breakI _ _ => .i
  | .nopF _ _ | .breakF _ _ => .f
  | .nopB _ _ | .breakB _ _ => .b
  | .nopX _ _ | .breakX _ _ => .lx

/-- The instruction is well formed for a slot of unit `u`: its opcode-table row is one of that unit (R75, R80). -/
abbrev Instr.WellFormed (i : Instr) (u : UnitType) : Prop := i.unit = u

/-- A bundle as written (R78): a template type, whether a stop ends it, and its instructions. An MLX bundle has two. -/
inductive Bundle where
  | three (name : TemplateName) (stop : Bool) (i0 i1 i2 : Instr)
  | long (stop : Bool) (i0 lx : Instr)
  deriving DecidableEq, Repr

/-- Every instruction stands in a slot of its unit; three instructions are not written in an MLX bundle (R70, R71). -/
def Bundle.wellFormed : Bundle → Bool
  | .three name _ i0 i1 i2 =>
    name != .mlx
      && i0.unit == name.units.1
      && i1.unit == name.units.2.1
      && i2.unit == name.units.2.2
  | .long _ i0 lx => i0.unit == .m && lx.unit == .x

/-- The instruction that a bundle executes at slot index `k`; an MLX bundle has none at 2 (R93). -/
def Bundle.instrAt : Bundle → SlotIx → Option Instr
  | .three _ _ i0 i1 i2, k => some (if k = 0 then i0 else if k = 1 then i1 else i2)
  | .long _ i0 lx, k => if k = 0 then some i0 else if k = 1 then some lx else none

end Sys2Proof
end

