-- ==== Sys2Proof/Decode.lean ====
section
/-!
DEFINITION. From 128 bits to an instruction and back (spec/30_encoding.md): the bundle layout (R61), the template table
(R65, R67), stops (R69), the slot format (R72, R73), immediates (R74), the opcode table (R75, R80), and after it the
encoder. Decoding is total: what is no instruction is rejected by name (R76).
-/

namespace Sys2Proof

/-! ### The bundle and its template -/

/-- `template = B[4:0]` (R61). -/
def bundleTemplate (B : BundleBits) : Template := B.extractLsb' 0 5

/-- `slot0 = B[45:5]`, `slot1 = B[86:46]`, `slot2 = B[127:87]` (R61). -/
def bundleSlot (B : BundleBits) (k : SlotIx) : SlotBits :=
  if k = 0 then B.extractLsb' 5 41 else if k = 1 then B.extractLsb' 46 41 else B.extractLsb' 87 41

/-- Template codes 00 to 0F of the table of R65; `none` is a blank row. -/
def templateTableLow : List (Option (UnitType × UnitType × UnitType)) :=
  [some (.m, .i, .i), some (.m, .i, .i), some (.m, .i, .i), some (.m, .i, .i),
   some (.m, .l, .x), some (.m, .l, .x), none, none,
   some (.m, .m, .i), some (.m, .m, .i), some (.m, .m, .i), some (.m, .m, .i),
   some (.m, .f, .i), some (.m, .f, .i), some (.m, .m, .f), some (.m, .m, .f)]

/-- Template codes 10 to 1F of the table of R65. -/
def templateTableHigh : List (Option (UnitType × UnitType × UnitType)) :=
  [some (.m, .i, .b), some (.m, .i, .b), some (.m, .b, .b), some (.m, .b, .b),
   none, none, some (.b, .b, .b), some (.b, .b, .b),
   some (.m, .m, .b), some (.m, .m, .b), none, none,
   some (.m, .f, .b), some (.m, .f, .b), none, none]

/-- The row of the template table for a code (R65). -/
def templateUnits (t : Template) : Option (UnitType × UnitType × UnitType) :=
  ((templateTableLow ++ templateTableHigh)[t.toNat]?).join

/-- `TemplateUnit(t, k)` of R67; `none` is `reserved`. -/
def templateUnit (t : Template) (k : SlotIx) : Option UnitType :=
  (templateUnits t).map fun u => if k = 0 then u.1 else if k = 1 then u.2.1 else u.2.2

/-- Templates 04 and 05, whose Slots 1 and 2 are one instruction (R70). -/
def isMLX (t : Template) : Bool := t == 0x04 || t == 0x05

/-- `StopAfter(t, k)` of R69: a stop follows Slot `k` of a bundle with template `t`. -/
def stopAfter (t : Template) (k : SlotIx) : Bool :=
  (k == 2 && t.getLsbD 0 && (templateUnits t).isSome)
    || (k == 1 && (t == 0x02 || t == 0x03))
    || (k == 0 && (t == 0x0A || t == 0x0B))

/-- The first code of the pair that R66 gives a template type. -/
def TemplateName.baseCode : TemplateName → Template
  | .mii => 0x00
  | .mi_i => 0x02
  | .mlx => 0x04
  | .mmi => 0x08
  | .m_mi => 0x0A
  | .mfi => 0x0C
  | .mmf => 0x0E
  | .mib => 0x10
  | .mbb => 0x12
  | .bbb => 0x16
  | .mmb => 0x18
  | .mfb => 0x1C

/-- The template code of a type: the odd code of its pair puts a stop at the end of the bundle (R66, R69). -/
def TemplateName.code (n : TemplateName) (stop : Bool) : Template :=
  n.baseCode ||| (if stop then 1 else 0)

/-! ### The fields of a slot, format IMM21 (R73) -/

/-- Bits 40:37, the major opcode (R72). -/
def slotOpcode (s : SlotBits) : BitVec 4 := s.extractLsb' 37 4
/-- Bit 36, bit 20 of the immediate (R73). -/
def slotI (s : SlotBits) : BitVec 1 := s.extractLsb' 36 1
/-- Bits 35:33, which must be 0 (R73). -/
def slotZ3 (s : SlotBits) : BitVec 3 := s.extractLsb' 33 3
/-- Bits 32:27, the opcode extension (R73). -/
def slotX6 (s : SlotBits) : BitVec 6 := s.extractLsb' 27 6
/-- Bit 26, which must be 0 (R73). -/
def slotY (s : SlotBits) : BitVec 1 := s.extractLsb' 26 1
/-- Bits 25:6, bits 19:0 of the immediate (R73). -/
def slotImm20a (s : SlotBits) : BitVec 20 := s.extractLsb' 6 20
/-- Bits 5:0, the qualifying predicate number (R72). -/
def slotQp (s : SlotBits) : PredNum := s.extractLsb' 0 6

/-- `imm21 = i :: imm20a` (R74). -/
def slotImm21 (s : SlotBits) : BitVec 21 := slotI s ++ slotImm20a s

/-- `imm62 = imm41 :: i :: imm20a`, `imm41` the whole L slot (R74). -/
def slotImm62 (l s : SlotBits) : BitVec 62 := l ++ slotImm21 s

/-! ### The opcode table and decoding -/

/-- A row of spec/opcode_table.json (R80): the unit, the fixed bits, and the instruction made from the L slot (read by
X rows only) and the slot. -/
structure OpcodeRow where
  unit : UnitType
  pattern : SlotBits
  mask : SlotBits
  make : SlotBits → SlotBits → Instr

/-- The mask of every row: `opcode`, `z3`, `x6` and `y` (R75). -/
def slotMask : SlotBits := 0x1effc000000

/-- The ten rows of spec/opcode_table.json, in its order (R75, R80). -/
def opcodeTable : List OpcodeRow :=
  [⟨.m, 0x00008000000, slotMask, fun _ s => .nopM (slotQp s) (slotImm21 s)⟩,
   ⟨.i, 0x00008000000, slotMask, fun _ s => .nopI (slotQp s) (slotImm21 s)⟩,
   ⟨.f, 0x00008000000, slotMask, fun _ s => .nopF (slotQp s) (slotImm21 s)⟩,
   ⟨.b, 0x04000000000, slotMask, fun _ s => .nopB (slotQp s) (slotImm21 s)⟩,
   ⟨.x, 0x00008000000, slotMask, fun l s => .nopX (slotQp s) (slotImm62 l s)⟩,
   ⟨.m, 0x00000000000, slotMask, fun _ s => .breakM (slotQp s) (slotImm21 s)⟩,
   ⟨.i, 0x00000000000, slotMask, fun _ s => .breakI (slotQp s) (slotImm21 s)⟩,
   ⟨.f, 0x00000000000, slotMask, fun _ s => .breakF (slotQp s) (slotImm21 s)⟩,
   ⟨.b, 0x00000000000, slotMask, fun _ s => .breakB (slotQp s) (slotImm21 s)⟩,
   ⟨.x, 0x00000000000, slotMask, fun l s => .breakX (slotQp s) (slotImm62 l s)⟩]

/-- A row applies to a slot of its unit whose masked bits are the row's (R75 step 4). -/
def OpcodeRow.applies (r : OpcodeRow) (u : UnitType) (s : SlotBits) : Bool :=
  r.unit == u && s &&& r.mask == r.pattern

/-- The instruction in a slot of unit `u`; `l` is the L slot, read for unit X only (R75 step 4). -/
def decodeUnit (u : UnitType) (l s : SlotBits) : Option Instr :=
  (opcodeTable.find? fun r => r.applies u s).map fun r => r.make l s

/-- What decoding a slot of a bundle gives (R75, R76, R93). -/
inductive Decoded where
  /-- An admitted instruction. -/
  | instr (i : Instr)
  /-- The template code is one of the eight blank rows (R68). -/
  | reservedTemplate (t : Template)
  /-- Slot 2 of an MLX bundle, which is no instruction by itself (R93). -/
  | slotTwoOfMLX
  /-- No row of the unit matches the slot (R76). -/
  | unknownEncoding (u : UnitType) (s : SlotBits)
  deriving DecidableEq, Repr

/-- Decode a slot of unit `u`, or say that nothing matches (R75 step 4). -/
def decodeAs (u : UnitType) (l s : SlotBits) : Decoded :=
  match decodeUnit u l s with
  | some i => .instr i
  | none => .unknownEncoding u s

/-- Decode what bundle `B` executes at slot index `k` (R75, R93): the unit is chosen first, from the template alone, and
the L and X slots of an MLX bundle are one instruction at index 1. -/
def decodeSlot (B : BundleBits) (k : SlotIx) : Decoded :=
  match templateUnit (bundleTemplate B) k with
  | none => .reservedTemplate (bundleTemplate B)
  | some .x => .slotTwoOfMLX
  | some .l => decodeAs .x (bundleSlot B 1) (bundleSlot B 2)
  | some u => decodeAs u 0 (bundleSlot B k)

/-! ### Bytes -/

/-- The number that bytes make, the first the least significant (R8, R41). -/
def bytesToNat : List Byte → Nat
  | [] => 0
  | b :: bs => b.toNat + 256 * bytesToNat bs

/-- The `n` low bytes of a number, the least significant first (R8). -/
def natToBytes : Nat → Nat → List Byte
  | 0, _ => []
  | n + 1, v => BitVec.ofNat 8 v :: natToBytes n (v / 256)

/-- The bundle that 16 bytes in memory order make (R41); `none` where they are not 16. -/
def bundleOfBytes (bs : List Byte) : Option BundleBits :=
  if bs.length = 16 then some (BitVec.ofNat 128 (bytesToNat bs)) else none

/-- The 16 bytes of a bundle in memory order (R61). -/
def bundleBytes (B : BundleBits) : List Byte := natToBytes 16 B.toNat

/-- Decode what 16 bytes execute at slot index `k`; `none` where they are not 16. -/
def decodeBytes (bs : List Byte) (k : SlotIx) : Option Decoded :=
  (bundleOfBytes bs).map fun B => decodeSlot B k

/-! ### Encoding -/

/-- A slot from its fields, `z3` and `y` being 0 (R73). -/
def slotOf (opcode : BitVec 4) (x6 : BitVec 6) (imm : BitVec 21) (qp : PredNum) : SlotBits :=
  opcode ++ imm.extractLsb' 20 1 ++ 0#3 ++ x6 ++ 0#1 ++ imm.extractLsb' 0 20 ++ qp

/-- The bits of the slot that holds the instruction's opcode: Slot 2 for an L+X instruction (R73). -/
def Instr.slotBits : Instr → SlotBits
  | .nopM q v | .nopI q v | .nopF q v => slotOf 0 1 v q
  | .nopB q v => slotOf 2 0 v q
  | .breakM q v | .breakI q v | .breakF q v | .breakB q v => slotOf 0 0 v q
  | .nopX q v => slotOf 0 1 (v.extractLsb' 0 21) q
  | .breakX q v => slotOf 0 0 (v.extractLsb' 0 21) q

/-- The 41 immediate bits of the L slot, `imm41`; 0 for an instruction that has no L slot (R74). -/
def Instr.longBits : Instr → SlotBits
  | .nopX _ v | .breakX _ v => v.extractLsb' 21 41
  | _ => 0

/-- The slots of an instruction, in slot order: one, or the L slot and the X slot. -/
def encode (i : Instr) : List SlotBits :=
  if i.unit = .x then [i.longBits, i.slotBits] else [i.slotBits]

/-- A bundle from its template and slots (R61). -/
def bundleOf (t : Template) (s0 s1 s2 : SlotBits) : BundleBits := s2 ++ s1 ++ s0 ++ t

/-- The bits of a bundle as written (R61, R66, R70). -/
def Bundle.encode : Bundle → BundleBits
  | .three n stop i0 i1 i2 => bundleOf (n.code stop) i0.slotBits i1.slotBits i2.slotBits
  | .long stop i0 lx => bundleOf (TemplateName.mlx.code stop) i0.slotBits lx.longBits lx.slotBits

/-! ### A word of the opcode table by itself -/

/-- The bundle in which a table row's word stands alone: the word in Slot 0, every other slot 0. A row's word does not
say its unit, so the template gives Slot 0 the unit M (template 00), or B (template 16) where only a B row matches
(log entry 11). Bits of the word above bit 40 are the bits of Slot 1. -/
def tableBundle (nbits w : Nat) : BundleBits :=
  let v := w % 2 ^ nbits
  let s : SlotBits := BitVec.ofNat 41 v
  let t : Nat := if (decodeUnit .m 0 s).isNone && (decodeUnit .b 0 s).isSome then 0x16 else 0x00
  BitVec.ofNat 128 (t + 32 * v)

/-- The instruction that the decoder reads from a table row's word (log entry 11). -/
def decodeTableWord (nbits w : Nat) : Option Instr :=
  match decodeSlot (tableBundle nbits w) 0 with
  | .instr i => some i
  | .reservedTemplate _ => none
  | .slotTwoOfMLX => none
  | .unknownEncoding _ _ => none

end Sys2Proof
end

