-- ==== Sys2Proof/Machine/State.lean ====
section
/-!
DEFINITION. The state of the machine (spec/10_state.md rule R28 with rules R10 to R24), its faults (spec/60_exceptions.md
rules R121, R124), its refusals (R122) and the state after reset (R31, R140, R141).
-/

namespace Sys2Proof.Machine

/-- What a register holds: a value, or `unwritten`, the state in which R28 and R141 let a launch leave it. At reset every
register holds a value (log entry 3), and no step makes one unwritten. -/
inductive Held (α : Type) where
  | unwritten
  | val (v : α)
  deriving DecidableEq, Repr

/-- The name of a register, as the fault of R30 reports it. -/
inductive RegName where
  | gr (n : Fin 128)
  | fr (n : Fin 128)
  | pr (n : Fin 64)
  | br (n : Fin 8)
  | ar (n : Fin 128)
  | cr (n : Fin 82)
  deriving DecidableEq, Repr

/-- The reasons of `IllegalOperation` (R121). -/
inductive IllegalReason where
  /-- The bundle's template code is one of the eight blank rows (R68). -/
  | reservedTemplate (t : Template)
  /-- An instruction whose destination is GR0 (R11); no admitted instruction has one. -/
  | writeGR0
  /-- An instruction whose destination is FR0 or FR1 (R13); no admitted instruction has one. -/
  | writeFR0or1
  deriving DecidableEq, Repr

/-- The reasons of `BadLaunch` (R122, R141). -/
inductive LaunchError where
  | misalignedEntry
  | misalignedEnd
  | badRrbPr
  | slotTwoOfMLX
  deriving DecidableEq, Repr

/-- The faults (R121), each with the fault record of R124: the bundle address `ip` and the slot index `ri` of the
faulting instruction. A fault is TAKEN as a next state whose mark is the fault (R128, log entry 2); the step of a state
so marked answers the fault, for the faulted state has no further step (R121). -/
inductive Fault where
  /-- Raised by the five `break` forms when their predicate is 1 (R106 to R110). Safe: the hardware goes on at a handler
  that the spec does not model (R128). -/
  | breakInstruction (info : Word) (ip : Word) (ri : SlotIx)
  /-- Raised by the step on a reserved template (R68, R92) and by a write to GR0, FR0 or FR1 (R11, R13). Safe, as above. -/
  | illegalOperation (reason : IllegalReason) (ip : Word) (ri : SlotIx)
  /-- The third of R121's three faults: raised by a read of a register that holds no value (R30, R100), and so only where
  a launch gave it none (R141). After reset every register holds a value, written since or not, and reading it is no fault
  (log entry 3). Safe: the spec stops here and forbids any value in its place (D7, U2). -/
  | unwrittenRegister (name : RegName) (ip : Word) (ri : SlotIx)
  deriving DecidableEq, Repr

/-- The address in a fault's record (R124). -/
def Fault.ip : Fault → Word
  | .breakInstruction _ a _ => a
  | .illegalOperation _ a _ => a
  | .unwrittenRegister _ a _ => a

/-- The slot index in a fault's record (R124). -/
def Fault.ri : Fault → SlotIx
  | .breakInstruction _ _ k => k
  | .illegalOperation _ _ k => k
  | .unwrittenRegister _ _ k => k

/-- The refusals (R122). A refusal is terminal and says nothing of the hardware. -/
inductive Refusal where
  /-- An instruction of the table that has no meaning yet: raised by no arm of exec in this model. Safe. -/
  | notModelled (mnemonic : String)
  /-- Raised by the step on a slot that no row of the opcode table matches (R76). Safe: the hardware may execute it. -/
  | unknownEncoding (u : UnitType) (s : SlotBits)
  /-- Raised by the step on a fetch outside `text` (R41). Safe: the hardware may hold code there. -/
  | noText (a : Word)
  /-- Raised by a launch that R141 does not allow, and by the step of a state that only such a launch makes. Safe. -/
  | badLaunch (reason : LaunchError)
  deriving DecidableEq, Repr

/-- The outcome mark of R28. -/
inductive Mark where
  | running
  | faulted (f : Fault)
  | refused (r : Refusal)
  | final
  deriving DecidableEq, Repr

/-- Memory: (address, byte) pairs, the addresses strictly rising. An address not listed holds nothing (R40). -/
abbrev Memory := List Host.Cell

/-- The registers. Those that rules R11, R13 and R17 hardwire (GR0, FR0, FR1, PR0) hold no state and are not stored. -/
structure Regs where
  /-- GR1 to GR127 (R10, R28). -/
  gr : Vector (Held Word) 127
  /-- FR2 to FR127 (R12, R28). -/
  fr : Vector (Held FpWord) 126
  /-- PR1 to PR63 (R14, R28); `true` is 1. -/
  pr : Vector (Held Bool) 63
  /-- BR0 to BR7 (R15). -/
  br : Vector (Held Word) 8
  /-- AR0 to AR127, 64 bits by R7 (R16). -/
  ar : Vector (Held Word) 128
  /-- Bits 31:0 of the current frame marker, below its field `rrb.pr`, which State holds as `rrbPr` (R20); the width is
  GK17's (log entry 9). -/
  cfmLow : Held (BitVec 32)
  /-- CR0 to CR81, 64 bits by R7 (R24, R8); read and written by no instruction (log entry 9). -/
  cr : Vector (Held Word) 82
  /-- The user mask (R21); its width is GK20's (log entry 9). -/
  um : Held (BitVec 6)
  /-- The processor identifiers (R22), as many as the list holds: `N_CPUID` is open (R7, log entry 9). -/
  cpuid : List (Held Word)
  /-- The performance monitor data registers (R23), as many as the list holds: `N_PMD` is open (R7, log entry 9). -/
  pmd : List (Held Word)
  /-- The region registers (R24), as many as the list holds (log entry 9). -/
  rr : List (Held Word)
  /-- The protection key registers (R24), as many as the list holds (log entry 9). -/
  pkr : List (Held Word)
  deriving DecidableEq, Repr

/-- The state (R28), and beside it the two launch parameters that the step reads, `text` and `end_ip`, which no step
changes (R40, R141). -/
structure State where
  /-- The instruction pointer: the address of the current bundle (R18). -/
  ip : Word
  /-- The slot index: the slot that executes next (R19). -/
  ri : SlotIx
  /-- The rename base of the predicates, a field of the current frame marker: 0 to 47 (R17, R20). -/
  rrbPr : BitVec 6
  /-- The registers. -/
  regs : Regs
  /-- The outcome mark (R28). -/
  mark : Mark
  /-- The program text, all the memory that the model knows (R40). -/
  text : Memory
  /-- The address at which the run is declared ended (R7, R97). -/
  endIp : Word
  deriving DecidableEq, Repr

/-- Every register zero: the spec states no reset value for any of them (R31). DESIGN CHOICE, unsafe (log entry 3). -/
def Regs.reset : Regs where
  gr := Vector.replicate 127 (.val 0)
  fr := Vector.replicate 126 (.val 0)
  pr := Vector.replicate 63 (.val false)
  br := Vector.replicate 8 (.val 0)
  ar := Vector.replicate 128 (.val 0)
  cfmLow := .val 0
  cr := Vector.replicate 82 (.val 0)
  um := .val 0
  cpuid := []
  pmd := []
  rr := []
  pkr := []

/-- The machine after reset. The spec gives `ri` 0, `rrb_pr` 0 and the mark running (R31, R141). It gives no reset vector
and leaves `text`, `entry_ip` and `end_ip` to the launch (R140): empty memory, address 0 and the highest bundle address
are DESIGN CHOICE, unsafe (log entry 4). -/
def State.reset : State where
  ip := 0
  ri := 0
  rrbPr := 0
  regs := Regs.reset
  mark := .running
  text := []
  endIp := 0xfffffffffffffff0

end Sys2Proof.Machine
end

