-- ==== Sys2Proof/Machine/Ops.lean ====
section
/-!
DEFINITION. The named operations over memory (spec/00_scope.md rule R8, spec/20_memory.md rules R40 to R42), taking a
fault (spec/60_exceptions.md rules R121, R124, R128), moving to the next instruction (spec/40_sequencing.md rule R94)
and the register files with their hardwired members (spec/10_state.md rules R11, R13, R17, R30).
-/

namespace Sys2Proof.Machine

/-- What a step, or an operation that may raise a fault, answers. -/
abbrev Result := Host.Outcome State Fault Refusal

/-! ### Memory -/

/-- The canonical form: addresses strictly rising and inside the 64-bit address space (R40). -/
abbrev Memory.wf (m : Memory) : Prop :=
  m.Pairwise (fun c d => c.1 < d.1) ∧ ∀ c ∈ m, c.1 < 2 ^ 64

/-- What an address that is not listed reads as: nothing (R40, log entry 5). -/
def Memory.unlisted : Option Byte := none

/-- The byte at an address, or nothing. -/
def Memory.read (m : Memory) (a : Nat) : Option Byte :=
  match m with
  | [] => Memory.unlisted
  | c :: rest => if c.1 = a then some c.2 else if a < c.1 then Memory.unlisted else Memory.read rest a

/-- Store a byte, keeping the canonical form. -/
def Memory.write (m : Memory) (a : Nat) (b : Byte) : Memory :=
  match m with
  | [] => [(a, b)]
  | c :: rest =>
    if a < c.1 then (a, b) :: c :: rest
    else if a = c.1 then (a, b) :: rest
    else c :: Memory.write rest a b

/-- The bytes at `n` addresses from `a` up, addresses wrapping modulo 2^64 (R8); nothing if one of them holds nothing. -/
def Memory.readBytes (m : Memory) (a : Word) : Nat → Option (List Byte)
  | 0 => some []
  | n + 1 =>
    match m.read a.toNat, Memory.readBytes m (a + 1) n with
    | some b, some bs => some (b :: bs)
    | _, _ => none

/-- Store bytes at the addresses from `a` up, wrapping modulo 2^64 (R8). -/
def Memory.writeBytes (m : Memory) (a : Word) : List Byte → Memory
  | [] => m
  | b :: bs => Memory.writeBytes (m.write a.toNat b) (a + 1) bs

/-- `MemRead(addr, n)` of R8: little-endian. -/
def Memory.memRead (m : Memory) (a : Word) (n : Nat) : Option (BitVec (8 * n)) :=
  (m.readBytes a n).map fun bs => BitVec.ofNat (8 * n) (bytesToNat bs)

/-- `MemWrite(addr, n, v)` of R8: little-endian. No admitted instruction calls it; it lays out a launch's text. -/
def Memory.memWrite (m : Memory) (a : Word) (n : Nat) (v : BitVec (8 * n)) : Memory :=
  m.writeBytes a (natToBytes n v.toNat)

/-- A bundle address is a multiple of 16 (R42). -/
def isBundleAddress (a : Word) : Bool := a.extractLsb' 0 4 == 0

/-- `FetchBundle(a)` of R41, for `a` a multiple of 16; nothing where `a` is outside the domain of `text`. -/
def fetchBundle (m : Memory) (a : Word) : Option BundleBits := m.memRead a 16

/-! ### Taking a fault, and moving on -/

/-- The state with another outcome mark. -/
def State.marked (s : State) (k : Mark) : State := { s with mark := k }

/-- The state at another instruction. -/
def State.goto (s : State) (ip : Word) (ri : SlotIx) : State := { s with ip := ip, ri := ri }

/-- TAKING A FAULT, the one operation for all of them: the state is marked faulted with the fault, which records `ip`
and `ri`; these are not advanced and no register changes (R124, R128; log entry 2). -/
def State.raise (s : State) (f : Word → SlotIx → Fault) : Result :=
  .next (s.marked (.faulted (f s.ip s.ri)))

/-- The next bundle: `ip` advances by 16 modulo 2^64 and `ri` is 0 (R94). -/
def State.nextBundle (s : State) : State := s.goto (s.ip + 16) 0

/-- The advance after an instruction of one slot (R94). -/
def State.nextSlot (s : State) : State :=
  if s.ri = 2 then s.nextBundle else s.goto s.ip (s.ri + 1)

/-! ### The register files

No admitted instruction calls these, but for the predicates (R26). `read` looks at what a register holds; `use` is the
read of R8, which an unwritten register faults (R30). -/

/-- The result of reading a register: its value, or the fault of R30. -/
def Held.use {α : Type} (h : Held α) (name : RegName) (s : State) (k : α → Result) : Result :=
  match h with
  | .unwritten => s.raise (.unwrittenRegister name)
  | .val v => k v

/-- GR[n]; GR0 reads 0 (R11). -/
def State.readGR (s : State) (n : Fin 128) : Held Word :=
  if h : n.val = 0 then .val 0 else s.regs.gr[n.val - 1]'(by omega)

/-- GR[n] <- v; a write to GR0 is an illegal operation (R11). -/
def State.writeGR (s : State) (n : Fin 128) (v : Word) : Result :=
  if h : n.val = 0 then s.raise (.illegalOperation .writeGR0)
  else .next { s with regs := { s.regs with gr := s.regs.gr.set (n.val - 1) (.val v) (by omega) } }

/-- FR[n]; FR0 and FR1 read +0.0 and +1.0, whose bits the spec does not fix (R13). -/
def State.readFR (s : State) (n : Fin 128) : Held FpWord :=
  if n.val = 0 then .val Config.fpPlusZero
  else if h : n.val = 1 then .val Config.fpPlusOne
  else s.regs.fr[n.val - 2]'(by omega)

/-- FR[n] <- v; a write to FR0 or FR1 is an illegal operation (R13). -/
def State.writeFR (s : State) (n : Fin 128) (v : FpWord) : Result :=
  if h : n.val < 2 then s.raise (.illegalOperation .writeFR0or1)
  else .next { s with regs := { s.regs with fr := s.regs.fr.set (n.val - 2) (.val v) (by omega) } }

/-- BR[n] (R15). -/
def State.readBR (s : State) (n : Fin 8) : Held Word := s.regs.br[n.val]

/-- BR[n] <- v (R15). -/
def State.writeBR (s : State) (n : Fin 8) (v : Word) : Result :=
  .next { s with regs := { s.regs with br := s.regs.br.set n.val (.val v) } }

/-- AR[n] (R16). -/
def State.readAR (s : State) (n : Fin 128) : Held Word := s.regs.ar[n.val]

/-- AR[n] <- v (R16). -/
def State.writeAR (s : State) (n : Fin 128) (v : Word) : Result :=
  .next { s with regs := { s.regs with ar := s.regs.ar.set n.val (.val v) } }

/-- CR[n] (R24, R8). -/
def State.readCR (s : State) (n : Fin 82) : Held Word := s.regs.cr[n.val]

/-- CR[n] <- v (R24, R8). -/
def State.writeCR (s : State) (n : Fin 82) (v : Word) : Result :=
  .next { s with regs := { s.regs with cr := s.regs.cr.set n.val (.val v) } }

/-- A read of GR[n] by an instruction, which goes on with `k` (R8, R30). -/
def State.useGR (s : State) (n : Fin 128) (k : Word → Result) : Result := (s.readGR n).use (.gr n) s k

/-- A read of FR[n] by an instruction (R8, R30). -/
def State.useFR (s : State) (n : Fin 128) (k : FpWord → Result) : Result := (s.readFR n).use (.fr n) s k

/-- A read of BR[n] by an instruction (R8, R30). -/
def State.useBR (s : State) (n : Fin 8) (k : Word → Result) : Result := (s.readBR n).use (.br n) s k

/-- A read of AR[n] by an instruction (R8, R30). -/
def State.useAR (s : State) (n : Fin 128) (k : Word → Result) : Result := (s.readAR n).use (.ar n) s k

/-- A read of CR[n] by an instruction (R8, R30). -/
def State.useCR (s : State) (n : Fin 82) (k : Word → Result) : Result := (s.readCR n).use (.cr n) s k

end Sys2Proof.Machine
end

