-- ==== Sys2Proof/Machine/Operands.lean ====
section
/-!
DEFINITION. The one operand form that reaches a result: the immediate a `break` reports, zero-extended to 64 bits
(spec/30_encoding.md rule R74, spec/60_exceptions.md rule R124). The other operand, the predicate number, is in Flags.lean.
-/

namespace Sys2Proof.Machine

/-- `zext_64(imm21)` (R106 to R108). -/
def info21 (imm : BitVec 21) : Word := imm.setWidth 64

/-- `zext_64(imm62)` (R110). -/
def info62 (imm : BitVec 62) : Word := imm.setWidth 64

/-- What `break.b` reports, whatever its immediate: 0 (R109). -/
def infoB (_imm : BitVec 21) : Word := 0

end Sys2Proof.Machine
end

