-- ==== Sys2Proof/Machine/Flags.lean ====
section
/-!
DEFINITION. The predicates, the only condition state there is (spec/10_state.md rules R14, R17): renaming, the hardwired
PR0, and the predication that comes first in every instruction (spec/41_nop_break.md rule R100). No instruction computes
a flag.
-/

namespace Sys2Proof.Machine

/-- `PredIndex(p)` of R17: predicates 16 to 63 rotate by `rrb_pr`. -/
def predIndex (p : PredNum) (rrb : BitVec 6) : Fin 64 :=
  if p.toNat < 16 then ⟨p.toNat, p.isLt⟩
  else ⟨16 + (p.toNat - 16 + rrb.toNat) % 48, by omega⟩

/-- PR[j] by its own number, not renamed; PR0 reads 1 (R17). -/
def State.readPR (s : State) (j : Fin 64) : Held Bool :=
  if h : j.val = 0 then .val true else s.regs.pr[j.val - 1]'(by omega)

/-- PR[j] <- v by its own number; a write to PR0 is discarded (R17). -/
def State.writePR (s : State) (j : Fin 64) (v : Bool) : State :=
  if h : j.val = 0 then s
  else { s with regs := { s.regs with pr := s.regs.pr.set (j.val - 1) (.val v) (by omega) } }

/-- `ReadPred(p)` of R100: the predicate that number `p` names, renamed. Number 0 is 1. -/
def State.readPred (s : State) (p : PredNum) : Held Bool := s.readPR (predIndex p s.rrbPr)

/-- Predication (R100): a predicate that holds no value raises the fault of R30; on 0 the instruction is nullified, and
the step only advances; on 1 it executes. -/
def State.predicated (s : State) (p : PredNum) (nullified : State) (executed : Result) : Result :=
  (s.readPred p).use (.pr (predIndex p s.rrbPr)) s fun v =>
    if v then executed else .next nullified

end Sys2Proof.Machine
end

