-- ==== Sys2Proof/Machine/Break.lean ====
section
/-!
DEFINITION. The five forms of `break` (spec/41_nop_break.md rules R106 to R110): on predicate 1 the Break Instruction
fault is taken with the value the form reports (R124); on predicate 0 the step advances (R94).
-/

namespace Sys2Proof.Machine

/-- `break.m` (R106). -/
def execBreakM (qp : PredNum) (imm : BitVec 21) (s : State) : Result :=
  s.predicated qp s.nextSlot (s.raise (.breakInstruction (info21 imm)))

/-- `break.i` (R107). -/
def execBreakI (qp : PredNum) (imm : BitVec 21) (s : State) : Result :=
  s.predicated qp s.nextSlot (s.raise (.breakInstruction (info21 imm)))

/-- `break.f` (R108). -/
def execBreakF (qp : PredNum) (imm : BitVec 21) (s : State) : Result :=
  s.predicated qp s.nextSlot (s.raise (.breakInstruction (info21 imm)))

/-- `break.b` (R109). -/
def execBreakB (qp : PredNum) (imm : BitVec 21) (s : State) : Result :=
  s.predicated qp s.nextSlot (s.raise (.breakInstruction (infoB imm)))

/-- `break.x` (R110). -/
def execBreakX (qp : PredNum) (imm : BitVec 62) (s : State) : Result :=
  s.predicated qp s.nextBundle (s.raise (.breakInstruction (info62 imm)))

end Sys2Proof.Machine
end

