-- ==== Sys2Proof/Machine/Nop.lean ====
section
/-!
DEFINITION. The five forms of `nop` (spec/41_nop_break.md rules R101 to R105): the predicate is read, the immediate is
ignored, and the step advances (R94), by a slot or, after the two-slot form, to the next bundle.
-/

namespace Sys2Proof.Machine

/-- `nop.m` (R101). -/
def execNopM (qp : PredNum) (_imm : BitVec 21) (s : State) : Result :=
  s.predicated qp s.nextSlot (.next s.nextSlot)

/-- `nop.i` (R102). -/
def execNopI (qp : PredNum) (_imm : BitVec 21) (s : State) : Result :=
  s.predicated qp s.nextSlot (.next s.nextSlot)

/-- `nop.f` (R103). -/
def execNopF (qp : PredNum) (_imm : BitVec 21) (s : State) : Result :=
  s.predicated qp s.nextSlot (.next s.nextSlot)

/-- `nop.b` (R104). -/
def execNopB (qp : PredNum) (_imm : BitVec 21) (s : State) : Result :=
  s.predicated qp s.nextSlot (.next s.nextSlot)

/-- `nop.x` (R105). -/
def execNopX (qp : PredNum) (_imm : BitVec 62) (s : State) : Result :=
  s.predicated qp s.nextBundle (.next s.nextBundle)

end Sys2Proof.Machine
end

