-- ==== Sys2Proof/Machine/Dispatch.lean ====
section
/-!
DEFINITION. The meaning of every instruction, one arm per constructor (spec/41_nop_break.md).
-/

namespace Sys2Proof.Machine

/-- What an instruction does to a state in which it executes (R101 to R110). -/
def exec (i : Instr) (s : State) : Host.Outcome State Fault Refusal :=
  match i with
  | .nopM qp imm => Sys2Proof.Machine.execNopM qp imm s
  | .nopI qp imm => Sys2Proof.Machine.execNopI qp imm s
  | .nopF qp imm => Sys2Proof.Machine.execNopF qp imm s
  | .nopB qp imm => Sys2Proof.Machine.execNopB qp imm s
  | .nopX qp imm => Sys2Proof.Machine.execNopX qp imm s
  | .breakM qp imm => Sys2Proof.Machine.execBreakM qp imm s
  | .breakI qp imm => Sys2Proof.Machine.execBreakI qp imm s
  | .breakF qp imm => Sys2Proof.Machine.execBreakF qp imm s
  | .breakB qp imm => Sys2Proof.Machine.execBreakB qp imm s
  | .breakX qp imm => Sys2Proof.Machine.execBreakX qp imm s

end Sys2Proof.Machine
end

