-- ==== Sys2Proof/Machine/Sequence.lean ====
section
/-!
DEFINITION. What a step does before its instruction runs, in the order of spec/60_exceptions.md rule R127: the end test
(spec/40_sequencing.md rule R97), the fetch (R91), the template check (R92), slot selection and decoding (R93). Also how
a single table word is placed where the step fetches next.
-/

namespace Sys2Proof.Machine

/-- What a state's step comes to: an answer with no instruction run, or an instruction to run. -/
inductive Action where
  | answer (r : Result)
  | run (i : Instr)

/-- The action on a fetched bundle (R92, R93): a reserved template faults before the slot is looked at, Slot 2 of an MLX
bundle and an undecodable slot are refused. -/
def State.actionOn (s : State) (B : BundleBits) : Action :=
  match decodeSlot B s.ri with
  | .reservedTemplate t => .answer (s.raise (.illegalOperation (.reservedTemplate t)))
  | .slotTwoOfMLX => .answer (.refused (.badLaunch .slotTwoOfMLX))
  | .unknownEncoding u b => .answer (.refused (.unknownEncoding u b))
  | .instr i => .run i

/-- The action of a running state (R90, R127). An `ip` that is no bundle address, which only a launch that R141 refuses
can make, is refused as that launch is (log entry 7). -/
def State.runningAction (s : State) : Action :=
  if s.ip = s.endIp ∧ s.ri = 0 then .answer (.next (s.marked .final))
  else if isBundleAddress s.ip then
    match fetchBundle s.text s.ip with
    | none => .answer (.refused (.noText s.ip))
    | some B => s.actionOn B
  else .answer (.refused (.badLaunch .misalignedEntry))

/-- The action of any state. A faulted or refused state has no further step (R121, R122): it answers its fault or
refusal for ever. A final state rests (R136, log entry 6). -/
def State.action (s : State) : Action :=
  match s.mark with
  | .running => s.runningAction
  | .faulted f => .answer (.fault f)
  | .refused r => .answer (.refused r)
  | .final => .answer (.next s)

/-- Place a table row's word where the step fetches next (log entry 12): the bundle of `tableBundle` at the bundle
address of `ip`, Slot 0 next, the mark running, and `end_ip` moved to the next bundle if it stood there. -/
def State.placeTableWord (s : State) (nbits w : Nat) : State :=
  let a : Word := s.ip.extractLsb' 4 60 ++ 0#4
  { s with
    ip := a
    ri := 0
    mark := .running
    text := s.text.memWrite a 16 (tableBundle nbits w)
    endIp := if s.endIp = a then a + 16 else s.endIp }

end Sys2Proof.Machine
end

