-- ==== Sys2Proof/Machine/Step.lean ====
section
/-!
DEFINITION. One step is one instruction (spec/40_sequencing.md rule R90): the checks of Sequence.lean, then exec.
-/

namespace Sys2Proof.Machine

/-- The step (R90, R127). -/
def step (s : State) : Host.Outcome State Fault Refusal :=
  match s.action with
  | .answer r => r
  | .run i => exec i s

/-- The state with a table row's word stored where the step fetches its next instruction (log entry 12). -/
def State.withFetchWord (s : State) (nbits w : Nat) : State := s.placeTableWord nbits w

end Sys2Proof.Machine
end

