-- ==== Sys2Proof/Machine/Launch.lean ====
section
/-!
DEFINITION. The launch (spec/70_reset_and_hazards.md rules R141, R153): what the host supplies before a run, the checks
made before the first step, and the state it leads to.
-/

namespace Sys2Proof.Machine

/-- Every non-hardwired register unwritten: the register part of a launch that names no premise (R31, R141). -/
def Regs.allUnwritten : Regs where
  gr := Vector.replicate 127 .unwritten
  fr := Vector.replicate 126 .unwritten
  pr := Vector.replicate 63 .unwritten
  br := Vector.replicate 8 .unwritten
  ar := Vector.replicate 128 .unwritten
  cfmLow := .unwritten
  cr := Vector.replicate 82 .unwritten
  um := .unwritten
  cpuid := []
  pmd := []
  rr := []
  pkr := []

/-- A launch (R141): the parameters `text`, `entry_ip`, `end_ip` and the launch state's `ri`, `rrb_pr` and registers. What
a launch does not say is `ri` 0, `rrb_pr` 0 and every register unwritten (R7, R31, R141). -/
structure Launch where
  text : Memory
  entryIp : Word
  endIp : Word
  ri : SlotIx := 0
  rrbPr : BitVec 6 := 0
  regs : Regs := Regs.allUnwritten
  deriving DecidableEq, Repr

/-- The bundle at the entry address is an MLX bundle (R141). -/
def Launch.entersMLX (l : Launch) : Bool :=
  match fetchBundle l.text l.entryIp with
  | none => false
  | some B => isMLX (bundleTemplate B)

/-- The first of R141's four checks that fails, in the order R141 lists them. -/
def Launch.error (l : Launch) : Option LaunchError :=
  if !isBundleAddress l.entryIp then some .misalignedEntry
  else if !isBundleAddress l.endIp then some .misalignedEnd
  else if 47 < l.rrbPr.toNat then some .badRrbPr
  else if l.ri = 2 && l.entersMLX then some .slotTwoOfMLX
  else none

/-- The launch state: running, or marked with the refusal of a bad launch, which is kept for the whole run (R122). -/
def Launch.start (l : Launch) : State where
  ip := l.entryIp
  ri := l.ri
  rrbPr := l.rrbPr
  regs := l.regs
  mark :=
    match l.error with
    | none => .running
    | some e => .refused (.badLaunch e)
  text := l.text
  endIp := l.endIp

/-- A program text from its bundles, each at its address (R40). -/
def textOf : List (Word × BundleBits) → Memory
  | [] => []
  | p :: rest => (textOf rest).memWrite p.1 16 p.2

end Sys2Proof.Machine
end

