-- ==== Sys2Proof/Safety.lean ====
section
/-!
DEFINITION. The terms in which claims are made: the invariant of the machine, and the premises of a run (spec/10_state.md
rules R17, R18, R30, spec/40_sequencing.md rules R93, R97, spec/60_exceptions.md rule R124, spec/70_reset_and_hazards.md
rules R141, R153).
-/

namespace Sys2Proof.Machine

/-- THE INVARIANT of the machine: it holds of every launch that R141 allows, and every step keeps it. -/
structure State.Inv (s : State) : Prop where
  /-- `ip` is a bundle address: its low 4 bits are 0 (R18). -/
  ipAligned : s.ip.toNat % 16 = 0
  /-- So is `end_ip` (R141). -/
  endAligned : s.endIp.toNat % 16 = 0
  /-- The rename base is 0 to 47 (R20). -/
  rrbLegal : s.rrbPr.toNat ≤ 47
  /-- The memory is in canonical form. -/
  textWf : s.text.wf
  /-- A running machine is not about to execute Slot 2 of an MLX bundle (R93). -/
  notInsideLong : s.mark = .running → ∀ B, fetchBundle s.text s.ip = some B →
    ¬(s.ri = 2 ∧ isMLX (bundleTemplate B) = true)
  /-- A fault's record names the bundle and the slot at which the machine stands (R124). -/
  faultRecord : ∀ f, s.mark = .faulted f → f.ip = s.ip ∧ f.ri = s.ri
  /-- A final state stands at the end of the run (R97). -/
  finalAtEnd : s.mark = .final → s.ip = s.endIp ∧ s.ri = 0

/-- Every predicate holds a value, the premise under which no run meets `UnwrittenRegister` (R30, R142). -/
def State.predicatesWritten (s : State) : Prop := ∀ j, s.readPR j ≠ .unwritten

/-- A safe run of `k` steps: it comes to a state, and that state is not faulted (R153). -/
def State.runsTo (s : State) (k : Nat) (t : State) : Prop :=
  Host.Core.run core k s = .next t ∧ ∀ f, t.mark ≠ .faulted f

end Sys2Proof.Machine

namespace Sys2Proof

/-- The instruction is one of the five `nop` forms (R101 to R105). -/
def Instr.isNop : Instr → Bool
  | .nopM _ _ | .nopI _ _ | .nopF _ _ | .nopB _ _ | .nopX _ _ => true
  | .breakM _ _ | .breakI _ _ | .breakF _ _ | .breakB _ _ | .breakX _ _ => false

end Sys2Proof
end

