-- ==== Sys2Proof/Certificates/Slice0/Obligations.lean ====
section
/-!
DEFINITION. The statements for the provers, from the numbered rules of spec/. A statement speaks of the model's own
functions; where it rests on a choice of the model, its docstring names the log entry. OBLIGATIONS.json lists them.
-/

open Sys2Proof Sys2Proof.Machine

/-! ### The step -/

/-- R90: one step is one instruction. Where the bundle at `ip` decodes at `ri` to an instruction, the step of a running
state is exec of it, with nothing added. -/
def Obligations.StepRunsDecodedInstruction : Prop :=
  ∀ (s : State) (B : BundleBits) (i : Instr),
    s.mark = .running → ¬(s.ip = s.endIp ∧ s.ri = 0) → s.ip.toNat % 16 = 0 →
    fetchBundle s.text s.ip = some B → decodeSlot B s.ri = .instr i → step s = exec i s

/-- R127 with R91 to R93 and R97: the whole order of checks in the step of a running state, each outcome tried only when
the ones before it do not apply. The next states marked final and faulted are log entries 6 and 2; that (4) is tried in
every step, not only the first, is log entry 13. -/
def Obligations.ChecksOfStepInOrder : Prop :=
  ∀ s : State, s.mark = .running → s.ip.toNat % 16 = 0 →
    step s =
      if s.ip = s.endIp ∧ s.ri = 0 then .next (s.marked .final)
      else match fetchBundle s.text s.ip with
        | none => .refused (.noText s.ip)
        | some B =>
          if (templateUnits (bundleTemplate B)).isNone then
            .next (s.marked (.faulted (.illegalOperation (.reservedTemplate (bundleTemplate B)) s.ip s.ri)))
          else if s.ri = 2 ∧ isMLX (bundleTemplate B) then .refused (.badLaunch .slotTwoOfMLX)
          else
            let long : Bool := s.ri = 1 ∧ isMLX (bundleTemplate B)
            let u : UnitType := if long then .x else (templateUnit (bundleTemplate B) s.ri).getD .m
            let b : SlotBits := if long then bundleSlot B 2 else bundleSlot B s.ri
            match decodeUnit u (bundleSlot B 1) b with
            | none => .refused (.unknownEncoding u b)
            | some i =>
              match s.readPred i.qp with
              | .unwritten =>
                .next (s.marked (.faulted (.unwrittenRegister (.pr (predIndex i.qp s.rrbPr)) s.ip s.ri)))
              | .val v =>
                if v ∧ ¬i.isNop then
                  .next (s.marked (.faulted (.breakInstruction
                    (if u = .b then 0 else BitVec.ofNat 64 i.immediate) s.ip s.ri)))
                else if s.ri = 2 ∨ long then .next (s.goto (s.ip + 16) 0)
                else .next (s.goto s.ip (s.ri + 1))

/-- R94: after an instruction that neither faulted nor was refused, the next bundle follows Slot 2 and an L+X instruction,
and otherwise the next slot; nothing else changes. The advance wraps modulo 2^64, as addition of 64-bit words does. -/
def Obligations.AdvanceAfterInstruction : Prop :=
  ∀ (s t : State) (B : BundleBits),
    s.mark = .running → fetchBundle s.text s.ip = some B → step s = .next t → t.mark = .running →
    t = if s.ri = 2 ∨ (s.ri = 1 ∧ (bundleTemplate B = 0x04 ∨ bundleTemplate B = 0x05))
        then { s with ip := s.ip + 16, ri := 0 }
        else { s with ri := s.ri + 1 }

/-- R97: at `end_ip` with `ri` 0 the run is final, whatever the text holds, for no fetch is made; a running state that is at
another slot of that bundle, or at another bundle, is not made final. The next state marked final is log entry 6. -/
def Obligations.RunEndsAtEndIp : Prop :=
  ∀ (s : State) (m : Memory), s.mark = .running →
    (s.ip = s.endIp ∧ s.ri = 0 → step { s with text := m } = .next { s with text := m, mark := .final }) ∧
      (¬(s.ip = s.endIp ∧ s.ri = 0) → ∀ t, step { s with text := m } = .next t → t.mark ≠ .final)

/-- R121, R122, R136: a faulted state has no further step and keeps its fault, a refused state its refusal, and a final
state rests, for any number of steps (log entries 2 and 6). -/
def Obligations.TerminalStatesStay : Prop :=
  ∀ (s : State) (k : Nat),
    (∀ f, s.mark = .faulted f → Host.Core.run core (k + 1) s = .fault f) ∧
      (∀ r, s.mark = .refused r → Host.Core.run core (k + 1) s = .refused r) ∧
      (s.mark = .final → Host.Core.run core k s = .next s)

/-- The only stops (R121, R122), and when each comes. A step answers a fault of a faulted state only: a fault is first taken
as a next state (log entry 2). It answers a refusal of a refused state, or of a running one: one of the sixteen bytes at
`ip` is not there (log entry 5); a fetched slot matches no row; `ri` is 2 in an MLX bundle, at any step (log entry 13);
`ip` is no bundle address (log entry 7). -/
def Obligations.OnlyTheseStops : Prop :=
  ∀ s : State,
    (∀ f, step s = .fault f ↔ s.mark = .faulted f) ∧
      ∀ r, step s = .refused r →
        s.mark = .refused r ∨
          (s.mark = .running ∧ ¬(s.ip = s.endIp ∧ s.ri = 0) ∧
            ((r = .noText s.ip ∧ ∃ k < 16, s.text.read (s.ip + BitVec.ofNat 64 k).toNat = none) ∨
              (∃ B u k, fetchBundle s.text s.ip = some B ∧ decodeUnit u (bundleSlot B 1) (bundleSlot B k) = none ∧
                r = .unknownEncoding u (bundleSlot B k)) ∨
              (r = .badLaunch .slotTwoOfMLX ∧ s.ri = 2 ∧ ∃ B, fetchBundle s.text s.ip = some B ∧
                (bundleTemplate B = 0x04 ∨ bundleTemplate B = 0x05)) ∨
              (r = .badLaunch .misalignedEntry ∧ s.ip.toNat % 16 ≠ 0)))

/-! ### The instructions -/

/-- R100 to R104: `nop` in an M, I, F or B slot, whatever its immediate and whether its predicate is 0 or 1, only
advances by a slot (R94). -/
def Obligations.NopOfOneSlotOnlyAdvances : Prop :=
  ∀ (s : State) (qp : PredNum) (imm : BitVec 21) (v : Bool), s.readPred qp = .val v →
    ∀ i ∈ [Instr.nopM qp imm, .nopI qp imm, .nopF qp imm, .nopB qp imm],
      exec i s =
        .next { s with ip := if s.ri = 2 then s.ip + 16 else s.ip, ri := if s.ri = 2 then 0 else s.ri + 1 }

/-- R105: `nop.x`, whatever its immediate and whether its predicate is 0 or 1, only advances to the next bundle (R94). -/
def Obligations.NopXGoesToNextBundle : Prop :=
  ∀ (s : State) (qp : PredNum) (imm : BitVec 62) (v : Bool), s.readPred qp = .val v →
    exec (.nopX qp imm) s = .next { s with ip := s.ip + 16, ri := 0 }

/-- R106 to R108, R124: `break.m`, `break.i` and `break.f` on predicate 1 take the Break Instruction fault with their
immediate zero-extended; `ip` and `ri` do not advance. That the fault is taken as a next state is log entry 2. -/
def Obligations.BreakMIFReportsItsImmediate : Prop :=
  ∀ (s : State) (qp : PredNum) (imm : BitVec 21), s.readPred qp = .val true →
    ∀ i ∈ [Instr.breakM qp imm, .breakI qp imm, .breakF qp imm],
      exec i s =
        .next { s with mark := .faulted (.breakInstruction (BitVec.ofNat 64 imm.toNat) s.ip s.ri) }

/-- R109: `break.b` on predicate 1 takes the fault with 0, whatever its immediate (log entry 2 for the next state). -/
def Obligations.BreakBReportsZero : Prop :=
  ∀ (s : State) (qp : PredNum) (imm : BitVec 21), s.readPred qp = .val true →
    exec (.breakB qp imm) s = .next { s with mark := .faulted (.breakInstruction 0 s.ip s.ri) }

/-- R110: `break.x` on predicate 1 takes the fault with its 62-bit immediate zero-extended, so that bits 63 and 62 of the
report are 0 (log entry 2 for the next state). -/
def Obligations.BreakXReportsItsImmediate : Prop :=
  ∀ (s : State) (qp : PredNum) (imm : BitVec 62), s.readPred qp = .val true →
    ∃ info : Word, info.toNat = imm.toNat ∧ info.getLsbD 62 = false ∧ info.getLsbD 63 = false ∧
      exec (.breakX qp imm) s = .next { s with mark := .faulted (.breakInstruction info s.ip s.ri) }

/-- R100, R106 to R110: a `break` on predicate 0 is nullified, and the step only advances (R94). -/
def Obligations.NullifiedBreakOnlyAdvances : Prop :=
  ∀ (s : State) (i : Instr), i.isNop = false → s.readPred i.qp = .val false →
    exec i s =
      .next (if i.unit = .x ∨ s.ri = 2 then { s with ip := s.ip + 16, ri := 0 } else { s with ri := s.ri + 1 })

/-- R30, R100, R127: an instruction whose predicate holds no value takes that fault, named by the renamed predicate, and
never its own; a `nop` does too. No run from reset meets it (log entry 3); the next state is log entry 2. -/
def Obligations.UnwrittenPredicateFaults : Prop :=
  ∀ (s : State) (i : Instr), s.readPred i.qp = .unwritten →
    i.qp ≠ 0 ∧
      exec i s =
        .next { s with mark := .faulted (.unwrittenRegister (.pr (predIndex i.qp s.rrbPr)) s.ip s.ri) }

/-- R26, the frame of the five `nop` forms: no register, no byte of memory, and no other part of the state but `ip` and
`ri` changes, unless the predicate is unwritten, and then only the mark does (R124; that fault as a next state is log
entry 2). -/
def Obligations.NopFrame : Prop :=
  ∀ (s t : State) (i : Instr), i.isNop = true → exec i s = .next t →
    (∀ n, t.readGR n = s.readGR n) ∧ (∀ n, t.readFR n = s.readFR n) ∧ (∀ n, t.readPR n = s.readPR n) ∧
      (∀ n, t.readBR n = s.readBR n) ∧ (∀ n, t.readAR n = s.readAR n) ∧ (∀ n, t.readCR n = s.readCR n) ∧ t.regs = s.regs ∧
      t.rrbPr = s.rrbPr ∧ (∀ a, t.text.read a = s.text.read a) ∧ t.text = s.text ∧ t.endIp = s.endIp ∧
      (t.mark = s.mark ∨ (s.readPred i.qp = .unwritten ∧ t.ip = s.ip ∧ t.ri = s.ri))

/-- R26, R124, the frame of the five `break` forms: no register, no byte of memory, and no other part of the state but
`ip`, `ri` and the mark changes; the mark only where a fault is taken, and then `ip` and `ri` do not. That the fault is
taken as a next state is log entry 2. -/
def Obligations.BreakFrame : Prop :=
  ∀ (s t : State) (i : Instr), i.isNop = false → exec i s = .next t →
    (∀ n, t.readGR n = s.readGR n) ∧ (∀ n, t.readFR n = s.readFR n) ∧ (∀ n, t.readPR n = s.readPR n) ∧
      (∀ n, t.readBR n = s.readBR n) ∧ (∀ n, t.readAR n = s.readAR n) ∧ (∀ n, t.readCR n = s.readCR n) ∧ t.regs = s.regs ∧
      t.rrbPr = s.rrbPr ∧ (∀ a, t.text.read a = s.text.read a) ∧ t.text = s.text ∧ t.endIp = s.endIp ∧
      (t.mark = s.mark ∨ (s.readPred i.qp ≠ .val false ∧ t.ip = s.ip ∧ t.ri = s.ri))

/-- R26: an instruction reads no register but the one predicate that its `qp` names. With every register changed but
that one, it does the same. -/
def Obligations.OnlyThePredicateIsRead : Prop :=
  ∀ (s t : State) (i : Instr) (r : Regs), ({ s with regs := r } : State).readPred i.qp = s.readPred i.qp →
    exec i s = .next t → exec i { s with regs := r } = .next { t with regs := r }

/-! ### Faults of the step -/

/-- R68, R92: a bundle whose template code is one of the eight blank rows faults at whatever slot it is entered, whatever
its slots hold, with no other effect (log entry 2 for the next state). -/
def Obligations.ReservedTemplateFaults : Prop :=
  ∀ (s : State) (t : Template) (s0 s1 s2 : SlotBits),
    t ∈ [0x06#5, 0x07#5, 0x14#5, 0x15#5, 0x1A#5, 0x1B#5, 0x1E#5, 0x1F#5] →
    s.mark = .running → ¬(s.ip = s.endIp ∧ s.ri = 0) → s.ip.toNat % 16 = 0 →
    fetchBundle s.text s.ip = some (bundleOf t s0 s1 s2) →
    step s = .next { s with mark := .faulted (.illegalOperation (.reservedTemplate t) s.ip s.ri) }

/-- R75, R76, R127: a slot that no row of its unit matches is refused, whatever predicate its low 6 bits name, and never
faults or executes. -/
def Obligations.UnknownEncodingRefused : Prop :=
  ∀ (s : State) (B : BundleBits) (u : UnitType),
    s.mark = .running → ¬(s.ip = s.endIp ∧ s.ri = 0) → s.ip.toNat % 16 = 0 →
    fetchBundle s.text s.ip = some B → templateUnit (bundleTemplate B) s.ri = some u →
    (u ≠ .l → u ≠ .x → decodeUnit u 0 (bundleSlot B s.ri) = none →
      step s = .refused (.unknownEncoding u (bundleSlot B s.ri))) ∧
    (u = .l → decodeUnit .x (bundleSlot B 1) (bundleSlot B 2) = none →
      step s = .refused (.unknownEncoding .x (bundleSlot B 2)))

/-- R120, R124: exceptions are precise. A step that takes a fault changes nothing but the mark, and the fault's record
names the bundle and the slot at which the machine stands. The fault as a next state is log entry 2. -/
def Obligations.FaultIsPrecise : Prop :=
  ∀ (s t : State) (f : Fault), s.mark = .running → step s = .next t → t.mark = .faulted f →
    t = { s with mark := .faulted f } ∧ f.ip = s.ip ∧ f.ri = s.ri

/-- R30, R142: where every predicate holds a value, no run of any length meets the fault of an unwritten register. That
the state after reset is such a state is the model's choice (log entry 3). -/
def Obligations.WrittenPredicatesNeverFault : Prop :=
  State.reset.predicatesWritten ∧
    ∀ (s t : State) (k : Nat) (n : RegName) (a : Word) (j : SlotIx),
      s.predicatesWritten → s.mark = .running → Host.Core.run core k s = .next t →
      t.mark ≠ .faulted (.unwrittenRegister n a j)

/-! ### Encoding -/

/-- R61, R66, R70, R73, R74: decoding a written bundle gives back its instruction at every slot index, with every operand
at every value, under every template type and stop; an MLX bundle has none at index 2. -/
def Obligations.DecodeEncodedBundle : Prop :=
  ∀ (b : Bundle) (k : SlotIx), b.wellFormed = true →
    decodeSlot b.encode k = match b.instrAt k with
      | some i => .instr i
      | none => .slotTwoOfMLX

/-- The other direction: a bundle in which every slot index decodes is the encoding of a well-formed written bundle, so
no bit of the 128 is dropped. -/
def Obligations.DecodedBundleIsEncoding : Prop :=
  ∀ B : BundleBits, (∀ k, decodeSlot B k = .slotTwoOfMLX ∨ ∃ i, decodeSlot B k = .instr i) →
    ∃ b : Bundle, b.wellFormed = true ∧ b.encode = B

/-- R73, R75, R76: which slots are instructions, by their fields: `z3` and `y` are 0, and opcode and `x6` are those of
`break` or `nop` in the unit; an L slot is never one. -/
def Obligations.SlotsThatDecode : Prop :=
  ∀ (u : UnitType) (l s : SlotBits),
    (decodeUnit u l s).isSome ↔
      slotZ3 s = 0 ∧ slotY s = 0 ∧
        ((u ∈ [UnitType.m, .i, .f, .x] ∧ slotOpcode s = 0 ∧ (slotX6 s = 0 ∨ slotX6 s = 1)) ∨
          (u = .b ∧ (slotOpcode s = 0 ∨ slotOpcode s = 2) ∧ slotX6 s = 0))

/-- R74: the immediate of a decoded instruction, as a number: bit 36 of its slot is bit 20, bits 25:6 are bits 19:0, and
for an L+X instruction, whose slot is Slot 2, the whole of Slot 1 is bits 61:21. What a `break` reports of it is the same
number, so it is zero-extended. -/
def Obligations.ImmediatesAreAssembled : Prop :=
  (∀ (B : BundleBits) (k : SlotIx) (i : Instr), decodeSlot B k = .instr i →
    i.immediate =
      (if i.unit = .x then (bundleSlot B 1).toNat * 2 ^ 21 else 0)
        + ((bundleSlot B (if i.unit = .x then 2 else k)).getLsbD 36).toNat * 2 ^ 20
        + (bundleSlot B (if i.unit = .x then 2 else k)).toNat / 2 ^ 6 % 2 ^ 20) ∧
    (∀ v : BitVec 21, (info21 v).toNat = v.toNat) ∧ ∀ v : BitVec 62, (info62 v).toNat = v.toNat

/-- R61: the template and the three slots are all the 128 bits, in this order from bit 0; a fetched bundle takes 16 bytes
from a bundle address up, the least significant first, so its template is the low 5 bits of the first byte. -/
def Obligations.BundleLayout : Prop :=
  (∀ B : BundleBits,
      B.toNat = (bundleTemplate B).toNat + (bundleSlot B 0).toNat * 2 ^ 5 + (bundleSlot B 1).toNat * 2 ^ 46
        + (bundleSlot B 2).toNat * 2 ^ 87) ∧
    (∀ (m : Memory) (a : Word) (B : BundleBits), a.toNat % 16 = 0 → fetchBundle m a = some B →
      (∀ k < 16, m.read (a.toNat + k) = some (B.extractLsb' (8 * k) 8)) ∧
        ∃ b, m.read a.toNat = some b ∧ bundleTemplate B = b.extractLsb' 0 5) ∧
    (bundleTemplate 0xaaaaaad5553fb72ea61da468acf13570 = 0x10 ∧
      bundleSlot 0xaaaaaad5553fb72ea61da468acf13570 0 = 0x123456789ab ∧
      bundleSlot 0xaaaaaad5553fb72ea61da468acf13570 1 = 0x0fedcba9876 ∧
      bundleSlot 0xaaaaaad5553fb72ea61da468acf13570 2 = 0x1555555aaaa)

/-- R64, R65, R66, R69: the twelve type names, in the source's order, take the code pairs in code order, here by value, the
odd code of a pair being the one with a stop at the end; each code has the units its name's letters spell; every assigned
code is of exactly one type; the other eight codes are blank; and an underscore in a name, and nothing else, is a stop
inside the bundle. That the names take the pairs in this order is the spec's own inference in R66. -/
def Obligations.TemplateTableMatchesNames : Prop :=
  [TemplateName.mii, .mi_i, .mlx, .mmi, .m_mi, .mfi, .mmf, .mib, .mbb, .bbb, .mmb, .mfb].map (fun n => n.code false)
      = [0x00, 0x02, 0x04, 0x08, 0x0A, 0x0C, 0x0E, 0x10, 0x12, 0x16, 0x18, 0x1C] ∧
    (∀ n : TemplateName, n.code true = n.code false + 1) ∧
    (∀ (n : TemplateName) (stop : Bool), templateUnits (n.code stop) = some n.units) ∧
    (∀ t : Template, (templateUnits t).isSome → ∃ n : TemplateName, ∃ stop : Bool, n.code stop = t) ∧
    (∀ (n n' : TemplateName) (stop stop' : Bool), n.code stop = n'.code stop' → n = n' ∧ stop = stop') ∧
    (∀ t : Template, templateUnits t = none ↔ t.toNat ∈ [0x06, 0x07, 0x14, 0x15, 0x1A, 0x1B, 0x1E, 0x1F]) ∧
    ∀ (n : TemplateName) (stop : Bool) (k : SlotIx), k ≠ 2 →
      (stopAfter (n.code stop) k = true ↔ (n = .mi_i ∧ k = 1) ∨ (n = .m_mi ∧ k = 0))

/-- R69: where the stops are: after Slot 2 of every odd assigned code, after Slot 1 of 02 and 03, after Slot 0 of 0A and
0B, and nowhere else; the two codes of a pair differ only in whether a stop ends the bundle. -/
def Obligations.StopsAreWhereTheTemplateSays : Prop :=
  (∀ (t : Template) (k : SlotIx),
      stopAfter t k = true ↔
        (t.toNat ∈ [0x01, 0x03, 0x05, 0x09, 0x0B, 0x0D, 0x0F, 0x11, 0x13, 0x17, 0x19, 0x1D] ∧ k = 2) ∨
          (t.toNat ∈ [0x02, 0x03] ∧ k = 1) ∨ (t.toNat ∈ [0x0A, 0x0B] ∧ k = 0)) ∧
    ∀ n : TemplateName, stopAfter (n.code true) 2 = true ∧ stopAfter (n.code false) 2 = false ∧
      ∀ k, k ≠ 2 → stopAfter (n.code true) k = stopAfter (n.code false) k

/-- R90, R146: a stop changes no result. Two bundles with the same slots, and templates of the same units, differ in their
stops alone, those inside the bundle (00 and 01 against 02 and 03, 08 and 09 against 0A and 0B) and the one at its end. They
decode at every slot index to the same, and a step whose machine fetches the one answers what it answers when it fetches
the other, but for the text itself. -/
def Obligations.StopsChangeNoResult : Prop :=
  ∀ (t t' : Template) (s0 s1 s2 : SlotBits), templateUnits t = templateUnits t' → (templateUnits t).isSome →
    (∀ k, decodeSlot (bundleOf t s0 s1 s2) k = decodeSlot (bundleOf t' s0 s1 s2) k) ∧
      ∀ (s : State) (m m' : Memory),
        fetchBundle m s.ip = some (bundleOf t s0 s1 s2) → fetchBundle m' s.ip = some (bundleOf t' s0 s1 s2) →
        match step { s with text := m } with
        | .next u => step { s with text := m' } = .next { u with text := m' }
        | .fault f => step { s with text := m' } = .fault f
        | .refused r => step { s with text := m' } = .refused r

/-- Words written out from the spec (R75, R101 to R110, 95_test_vectors.md sections 2.4, 2.5, 2.8) decode to what they
stand for; the same bits are another instruction in a slot of another unit. -/
def Obligations.WrittenOutWordsDecode : Prop :=
  decodeUnit .m 0 0x00008000040 = some (.nopM 0 1) ∧
    decodeUnit .i 0 0x0100bffffff = some (.nopI 63 0x1fffff) ∧
    decodeUnit .f 0 0x00008000080 = some (.nopF 0 2) ∧
    decodeUnit .b 0 0x040000000c0 = some (.nopB 0 3) ∧
    decodeUnit .x 0x1ffffffffff 0x0100bffffc0 = some (.nopX 0 0x3fffffffffffffff) ∧
    decodeUnit .m 0 0x01003ffffc0 = some (.breakM 0 0x1fffff) ∧
    decodeUnit .i 0 0x0000048d141 = some (.breakI 1 0x12345) ∧
    decodeUnit .f 0 0x00000000140 = some (.breakF 0 5) ∧
    decodeUnit .b 0 0x00000000140 = some (.breakB 0 5) ∧
    decodeUnit .x 0x15555555555 0x01001555540 = some (.breakX 0 0x2aaaaaaaaab55555) ∧
    decodeUnit .b 0 0x00008000000 = none ∧ decodeUnit .m 0 0x04000000000 = none

/-- The word of an opcode-table row, placed where the step fetches, is fetched, decoded and run by the very next step, and
refused where the decoder has none. How it is placed is the model's choice (log entries 11 and 12). -/
def Obligations.PlacedWordIsRun : Prop :=
  ∀ (s : State) (nbits w : Nat),
    step (s.withFetchWord nbits w) =
      match decodeTableWord nbits w with
      | some i => exec i (s.withFetchWord nbits w)
      | none => .refused (.unknownEncoding .m (BitVec.ofNat 41 (w % 2 ^ nbits)))

/-! ### Memory -/

/-- R41: the fetched value's bits 8k+7:8k are the byte at `a + k`, for k from 0 to 15, and there is a fetched value only if
every one of them is there; a fetch from outside the text is refused. -/
def Obligations.FetchIsLittleEndian : Prop :=
  (∀ (m : Memory) (a : Word) (B : BundleBits),
      fetchBundle m a = some B ↔
        ∀ k < 16, m.read (a + BitVec.ofNat 64 k).toNat = some (B.extractLsb' (8 * k) 8)) ∧
    ∀ s : State, s.mark = .running → ¬(s.ip = s.endIp ∧ s.ri = 0) → s.ip.toNat % 16 = 0 →
      (∃ k < 16, s.text.read (s.ip + BitVec.ofNat 64 k).toNat = none) → step s = .refused (.noText s.ip)

/-- Memory in canonical form is determined by what its addresses read as, so equal memories are equal data (log entry 5:
an address not listed reads as nothing). -/
def Obligations.CanonicalMemoryIsItsBytes : Prop :=
  ∀ m m' : Memory, m.wf → m'.wf → (∀ a, m.read a = m'.read a) → m = m'

/-- R40, R52: the text is immutable: no step changes a byte of it. -/
def Obligations.TextIsImmutable : Prop :=
  ∀ (s t : State), step s = .next t → t.text = s.text ∧ ∀ a, t.text.read a = s.text.read a

/-! ### Registers -/

/-- R17: predicate 0 reads 1 and a write to it is discarded; predicates 1 to 15 are named directly; predicates 16 to 63
rotate by the rename base, which at 0 leaves each its own number; a write to another predicate is read back. -/
def Obligations.PredicatesRotate : Prop :=
  ∀ s : State,
    s.readPred 0 = .val true ∧ (∀ v, s.writePR 0 v = s) ∧
      (∀ (p : PredNum) (h : p.toNat < 16), s.readPred p = s.readPR ⟨p.toNat, by omega⟩) ∧
      (∀ p : PredNum, 16 ≤ p.toNat →
        s.readPred p = s.readPR ⟨16 + (p.toNat - 16 + s.rrbPr.toNat) % 48, by omega⟩) ∧
      (s.rrbPr = 0 → ∀ p : PredNum, s.readPred p = s.readPR ⟨p.toNat, p.isLt⟩) ∧
      ∀ (j j' : Fin 64) (v : Bool), j ≠ 0 →
        (s.writePR j v).readPR j' = if j' = j then .val v else s.readPR j'

/-- R11: GR0 reads 0 and a write to it is an illegal operation; a write to another general register is read back, and
leaves every other one alone. The next state of the fault is log entry 2. -/
def Obligations.GeneralRegisterZero : Prop :=
  ∀ (s : State) (v : Word),
    s.readGR 0 = .val 0 ∧
      s.writeGR 0 v = .next { s with mark := .faulted (.illegalOperation .writeGR0 s.ip s.ri) } ∧
      ∀ n : Fin 128, n ≠ 0 → ∃ t, s.writeGR n v = .next t ∧
        (∀ n', t.readGR n' = if n' = n then .val v else s.readGR n') ∧
        t = { s with regs := { s.regs with gr := t.regs.gr } }

/-- R13: a write to FR0 or FR1 is an illegal operation, and each always reads as one value, whose bits the spec does not
fix (log entry 8); a write to another is read back. The next state of the fault is log entry 2. -/
def Obligations.FloatingRegistersZeroAndOne : Prop :=
  ∀ (s s' : State) (v : FpWord),
    (∃ z o, s.readFR 0 = .val z ∧ s'.readFR 0 = .val z ∧ s.readFR 1 = .val o ∧ s'.readFR 1 = .val o) ∧
      (∀ n : Fin 128, n.val < 2 →
        s.writeFR n v = .next { s with mark := .faulted (.illegalOperation .writeFR0or1 s.ip s.ri) }) ∧
      ∀ n : Fin 128, 2 ≤ n.val → ∃ t, s.writeFR n v = .next t ∧
        (∀ n', t.readFR n' = if n' = n then .val v else s.readFR n') ∧
        t = { s with regs := { s.regs with fr := t.regs.fr } }

/-- R15, R16: branch and application registers have no hardwired member: each reads back what is written to it, and no
other register changes. THE MODEL'S CHOICE, not the spec's: the same of the control registers, which the spec keeps out of
its machine state, with CR0 to CR81 all there and each readable and writable (log entry 9). -/
def Obligations.BranchAndApplicationRegisters : Prop :=
  ∀ (s : State) (v : Word),
    (∀ n : Fin 8, ∃ t, s.writeBR n v = .next t ∧
        (∀ n', t.readBR n' = if n' = n then .val v else s.readBR n') ∧
        t = { s with regs := { s.regs with br := t.regs.br } }) ∧
      (∀ n : Fin 128, ∃ t, s.writeAR n v = .next t ∧
        (∀ n', t.readAR n' = if n' = n then .val v else s.readAR n') ∧
        t = { s with regs := { s.regs with ar := t.regs.ar } }) ∧
      ∀ n : Fin 82, ∃ t, s.writeCR n v = .next t ∧
        (∀ n', t.readCR n' = if n' = n then .val v else s.readCR n') ∧
        t = { s with regs := { s.regs with cr := t.regs.cr } }

/-- R8, R30: an instruction's read of a register that holds no value is the fault of that register, and of one that holds a
value goes on with it; GR0, FR0 and FR1 never fault. The fault as a next state is log entry 2; that the control registers
are among the registers is log entry 9. -/
def Obligations.UnwrittenRegisterReadFaults : Prop :=
  ∀ (s : State) (k : Word → Result) (kf : FpWord → Result),
    let fault (n : RegName) : Result := .next { s with mark := .faulted (.unwrittenRegister n s.ip s.ri) }
    (∀ n, (s.readGR n = .unwritten → n ≠ 0 ∧ s.useGR n k = fault (.gr n)) ∧
        ∀ v, s.readGR n = .val v → s.useGR n k = k v) ∧
      (∀ n, (s.readFR n = .unwritten → 2 ≤ n.val ∧ s.useFR n kf = fault (.fr n)) ∧
        ∀ v, s.readFR n = .val v → s.useFR n kf = kf v) ∧
      (∀ n, (s.readBR n = .unwritten → s.useBR n k = fault (.br n)) ∧
        ∀ v, s.readBR n = .val v → s.useBR n k = k v) ∧
      (∀ n, (s.readAR n = .unwritten → s.useAR n k = fault (.ar n)) ∧
        ∀ v, s.readAR n = .val v → s.useAR n k = k v) ∧
      ∀ n, (s.readCR n = .unwritten → s.useCR n k = fault (.cr n)) ∧
        ∀ v, s.readCR n = .val v → s.useCR n k = k v

/-- R26: no step writes a register of any file, hardwired or not, the rename base or a parameter of the launch. -/
def Obligations.StepWritesNoRegister : Prop :=
  ∀ (s t : State), step s = .next t →
    t.regs = s.regs ∧ t.rrbPr = s.rrbPr ∧ t.endIp = s.endIp ∧ ∀ p, t.readPred p = s.readPred p

/-! ### Reset, launch and runs -/

/-- R31, R141: reset leaves `ri` 0, the rename base 0 and the mark running. THE MODEL'S CHOICE, not the spec's: `ip` 0,
`end_ip` the highest bundle address and empty text (log entry 4), every register 0 (log entry 3), and the registers that the
spec's record leaves out 0, or none where their number is open (log entry 9). -/
def Obligations.ResetLeaves : Prop :=
  State.reset.ri = 0 ∧ State.reset.rrbPr = 0 ∧ State.reset.mark = .running ∧
    State.reset.ip = 0 ∧ State.reset.endIp = 0xfffffffffffffff0 ∧ State.reset.text = [] ∧
    (∀ n, State.reset.readGR n = .val 0) ∧ (∀ n, 2 ≤ n.val → State.reset.readFR n = .val 0) ∧
    (∀ n, n ≠ 0 → State.reset.readPR n = .val false) ∧ (∀ n, State.reset.readBR n = .val 0) ∧
    (∀ n, State.reset.readAR n = .val 0) ∧ (∀ n, State.reset.readCR n = .val 0) ∧
    State.reset.regs.cfmLow = .val 0 ∧ State.reset.regs.um = .val 0 ∧ State.reset.regs.cpuid = [] ∧
    State.reset.regs.pmd = [] ∧ State.reset.regs.rr = [] ∧ State.reset.regs.pkr = []

/-- R7, R31, R141: what a launch leaves that gives only `text`, `entry_ip` and `end_ip`: `ri` 0, the rename base 0, and no
register with a value but GR0, FR0, FR1 and PR0. The control registers too are the model's (log entry 9). -/
def Obligations.LaunchWithNoPremise : Prop :=
  ∀ (m : Memory) (entry fin : Word),
    let s := ({ text := m, entryIp := entry, endIp := fin } : Launch).start
    s.ip = entry ∧ s.endIp = fin ∧ s.text = m ∧ s.ri = 0 ∧ s.rrbPr = 0 ∧
      (∀ n, s.readGR n = if n = 0 then .val 0 else .unwritten) ∧ (∀ n, s.readFR n = .unwritten ↔ 2 ≤ n.val) ∧
      (∀ n, s.readPR n = if n = 0 then .val true else .unwritten) ∧ (∀ n, s.readBR n = .unwritten) ∧
      (∀ n, s.readAR n = .unwritten) ∧ ∀ n, s.readCR n = .unwritten

/-- The state after reset meets the invariant. -/
def Obligations.ResetMeetsInvariant : Prop := State.reset.Inv

/-- THE INVARIANT of the machine is kept by every step: `ip` stays a bundle address (R18), the rename base legal (R20),
the memory canonical, the machine never comes to Slot 2 of an MLX bundle (R93), a fault's record stays true (R124), and a
final state stands at the end (R97). The canonical form and the two marks are the model's (log entries 5, 2 and 6). -/
def Obligations.EveryStepKeepsInvariant : Prop :=
  ∀ s t : State, s.Inv → step s = .next t → t.Inv

/-- R93: a state that meets the invariant is never refused as a bad launch is: Slot 2 of an MLX bundle and a misaligned
`ip` are launch states only. -/
def Obligations.BadLaunchIsNeverReached : Prop :=
  ∀ (s : State) (e : LaunchError), s.Inv → s.mark = .running → step s ≠ .refused (.badLaunch e)

/-- R141, R122: the launch state is made of the launch's own fields. A launch runs exactly when its two addresses are
multiples of 16, its rename base is at most 47, and it does not enter an MLX bundle at Slot 2; any other is refused at every
step, for one of those reasons that holds of it. -/
def Obligations.BadLaunchesAreRefused : Prop :=
  ∀ l : Launch,
    (l.start.ip = l.entryIp ∧ l.start.ri = l.ri ∧ l.start.rrbPr = l.rrbPr ∧ l.start.regs = l.regs ∧
        l.start.text = l.text ∧ l.start.endIp = l.endIp) ∧
      (l.start.mark = .running ↔
      l.entryIp.toNat % 16 = 0 ∧ l.endIp.toNat % 16 = 0 ∧ l.rrbPr.toNat ≤ 47 ∧
        ¬(l.ri = 2 ∧ ∃ B, fetchBundle l.text l.entryIp = some B ∧
          (bundleTemplate B = 0x04 ∨ bundleTemplate B = 0x05))) ∧
      (l.start.mark ≠ .running → ∃ e, ∀ k, Host.Core.run core (k + 1) l.start = .refused (.badLaunch e) ∧
        (e = .misalignedEntry → l.entryIp.toNat % 16 ≠ 0) ∧ (e = .misalignedEnd → l.endIp.toNat % 16 ≠ 0) ∧
        (e = .badRrbPr → 47 < l.rrbPr.toNat) ∧
        (e = .slotTwoOfMLX → l.ri = 2 ∧ ∃ B, fetchBundle l.text l.entryIp = some B ∧
          (bundleTemplate B = 0x04 ∨ bundleTemplate B = 0x05)))

/-- R141: a launch that runs, with its memory in canonical form, meets the invariant. -/
def Obligations.GoodLaunchMeetsInvariant : Prop :=
  ∀ l : Launch, l.text.wf → l.start.mark = .running → l.start.Inv

/-- R153, R97, R26: what the host observes at the end of a run of any length: `ip` is `end_ip`, `ri` is 0, and every
register, the rename base, the text and `end_ip` are those of the launch. The mark final is log entry 6. -/
def Obligations.FinalStateIsTheLaunchAtEnd : Prop :=
  ∀ (l : Launch) (k : Nat) (t : State), l.text.wf → l.start.mark = .running →
    Host.Core.run core k l.start = .next t → t.mark = .final →
    t = { ip := l.endIp, ri := 0, rrbPr := l.rrbPr, regs := l.regs, mark := .final, text := l.text, endIp := l.endIp }

/-- R90, R94, R101 to R105: a bundle of `nop`s whose predicates hold a value falls through to the next bundle, in three
steps, or in two if it is an MLX bundle, with nothing else changed. -/
def Obligations.NopBundleFallsThrough : Prop :=
  ∀ (s : State) (b : Bundle), s.mark = .running → s.ip.toNat % 16 = 0 → s.ri = 0 → s.ip ≠ s.endIp →
    fetchBundle s.text s.ip = some b.encode → b.wellFormed = true →
    (∀ k i, b.instrAt k = some i → i.isNop = true ∧ s.readPred i.qp ≠ .unwritten) →
    s.runsTo (if b.instrAt 2 = none then 2 else 3) { s with ip := s.ip + 16 }

/-- R147 to R149: the Itanium 2 pipeline is the Itanium pipeline without its stages FET and WLD, and both lists have the
length that the source states. -/
def Obligations.PipelinesAgree : Prop :=
  Config.pipeline .itanium2 = (Config.pipeline .itanium).filter (fun g => g ≠ .fet ∧ g ≠ .wld) ∧
    ∀ v, (Config.pipeline v).length = Config.pipelineStages v ∧ (Config.pipeline v).Nodup
end

