-- ==== Sys2Proof/Laws/Decode.lean ====
section
/-!
SUPPORT. What decoding answers (spec/30_encoding.md rules R67, R73 to R75), and that encoding a slot is undone by it.
-/

namespace Sys2Proof

/-! ### The fields of an encoded slot -/

theorem slotQp_slotOf (o : BitVec 4) (x : BitVec 6) (v : BitVec 21) (q : PredNum) :
    slotQp (slotOf o x v q) = q := by
  apply BitVec.eq_of_getLsbD_eq
  intro i hi
  simp only [slotQp, slotOf, BitVec.getLsbD_extractLsb', BitVec.getLsbD_append]
  simp [hi]

theorem slotImm21_slotOf (o : BitVec 4) (x : BitVec 6) (v : BitVec 21) (q : PredNum) :
    slotImm21 (slotOf o x v q) = v := by
  apply BitVec.eq_of_getLsbD_eq
  intro i hi
  simp only [slotImm21, slotI, slotImm20a, slotOf, BitVec.getLsbD_extractLsb', BitVec.getLsbD_append]
  interval_cases i <;> simp

/-- The bits that the mask keeps are those of the opcode and the extension. -/
theorem slotOf_masked (o : BitVec 4) (x : BitVec 6) (v : BitVec 21) (q : PredNum) :
    slotOf o x v q &&& slotMask = slotOf o x 0 0 := by
  apply BitVec.eq_of_getLsbD_eq
  intro i hi
  simp only [slotOf, slotMask, BitVec.getLsbD_and, BitVec.getLsbD_extractLsb', BitVec.getLsbD_append]
  interval_cases i <;> simp

/-- A slot is its fields: the fixed bits of a pattern, the immediate and the predicate number make it again. -/
theorem slotOf_fields {s : SlotBits} {o : BitVec 4} {x : BitVec 6} (h : s &&& slotMask = slotOf o x 0 0) :
    slotOf o x (slotImm21 s) (slotQp s) = s := by
  apply BitVec.eq_of_getLsbD_eq
  intro i hi
  have hb := congrArg (fun b => b.getLsbD i) h
  revert hb
  simp only [slotOf, slotMask, slotImm21, slotI, slotImm20a, slotQp, BitVec.getLsbD_and,
    BitVec.getLsbD_extractLsb', BitVec.getLsbD_append]
  interval_cases i <;> simp <;> tauto

/-! ### A slot and its instruction -/

/-- The patterns of the opcode table, by opcode and extension (R75). -/
theorem pattern_break : slotOf 0 0 0 0 = 0x00000000000#41 := by decide
theorem pattern_nop : slotOf 0 1 0 0 = 0x00008000000#41 := by decide
theorem pattern_nopB : slotOf 2 0 0 0 = 0x04000000000#41 := by decide

/-- Of a unit other than L, a slot that its unit's rows match is an instruction, and nothing else is. -/
theorem decodeUnit_eq (u : UnitType) (l s : SlotBits) :
    decodeUnit u l s =
      match u with
      | .m => if s &&& slotMask = 0x00008000000 then some (.nopM (slotQp s) (slotImm21 s))
              else if s &&& slotMask = 0 then some (.breakM (slotQp s) (slotImm21 s)) else none
      | .i => if s &&& slotMask = 0x00008000000 then some (.nopI (slotQp s) (slotImm21 s))
              else if s &&& slotMask = 0 then some (.breakI (slotQp s) (slotImm21 s)) else none
      | .f => if s &&& slotMask = 0x00008000000 then some (.nopF (slotQp s) (slotImm21 s))
              else if s &&& slotMask = 0 then some (.breakF (slotQp s) (slotImm21 s)) else none
      | .b => if s &&& slotMask = 0x04000000000 then some (.nopB (slotQp s) (slotImm21 s))
              else if s &&& slotMask = 0 then some (.breakB (slotQp s) (slotImm21 s)) else none
      | .x => if s &&& slotMask = 0x00008000000 then some (.nopX (slotQp s) (slotImm62 l s))
              else if s &&& slotMask = 0 then some (.breakX (slotQp s) (slotImm62 l s)) else none
      | .l => none := by
  have e (c : SlotBits) : (s &&& slotMask == c) = decide (s &&& slotMask = c) := rfl
  simp only [decodeUnit, opcodeTable, OpcodeRow.applies, List.find?_cons, e]
  generalize s &&& slotMask = z
  by_cases h1 : z = 0x00008000000
  · subst h1; cases u <;> rfl
  by_cases h2 : z = 0x04000000000
  · subst h2; cases u <;> rfl
  by_cases h3 : z = 0
  · subst h3; cases u <;> rfl
  simp only [decide_eq_false h1, decide_eq_false h2, decide_eq_false h3, if_neg h1, if_neg h2, if_neg h3]
  cases u <;> rfl

theorem slotImm62_parts (v : BitVec 62) (o : BitVec 4) (x : BitVec 6) (q : PredNum) :
    slotImm62 (v.extractLsb' 21 41) (slotOf o x (v.extractLsb' 0 21) q) = v := by
  rw [slotImm62, slotImm21_slotOf]
  apply BitVec.eq_of_getLsbD_eq
  intro i hi
  simp only [BitVec.getLsbD_extractLsb', BitVec.getLsbD_append]
  split_ifs
  · simp only [Nat.zero_add, decide_true, Bool.true_and, *]
  · rw [show 21 + (i - 21) = i by omega, decide_eq_true (show i - 21 < 41 by omega), Bool.true_and]

/-- Decoding the slots of an instruction for its unit gives it back. -/
theorem decodeUnit_slotBits (i : Instr) : decodeUnit i.unit i.longBits i.slotBits = some i := by
  rw [decodeUnit_eq]
  cases i <;>
    simp only [Instr.unit, Instr.slotBits, Instr.longBits, slotOf_masked, slotImm21_slotOf, slotQp_slotOf,
      slotImm62_parts, pattern_break, pattern_nop, pattern_nopB]
  all_goals first | exact if_pos rfl | (rw [if_neg (by decide)]; exact if_pos rfl)

/-- The L slot has no part in decoding for a unit other than X. -/
theorem decodeUnit_longBits {u : UnitType} (h : u ≠ .x) (l l' s : SlotBits) :
    decodeUnit u l s = decodeUnit u l' s := by
  rw [decodeUnit_eq, decodeUnit_eq]
  cases u <;> first | exact absurd rfl h | rfl

/-- What decoding gives is an instruction of the unit, and its encoding is the slots it came from. -/
theorem decodeUnit_some {u : UnitType} {l s : SlotBits} {i : Instr} (h : decodeUnit u l s = some i) :
    i.unit = u ∧ i.slotBits = s ∧ (u = .x → i.longBits = l) := by
  have low (l s : SlotBits) : (slotImm62 l s).extractLsb' 0 21 = slotImm21 s := by
    apply BitVec.eq_of_getLsbD_eq
    intro k hk
    simp only [slotImm62, BitVec.getLsbD_extractLsb', BitVec.getLsbD_append]
    simp [hk]
  have high (l s : SlotBits) : (slotImm62 l s).extractLsb' 21 41 = l := by
    apply BitVec.eq_of_getLsbD_eq
    intro k hk
    simp only [slotImm62, BitVec.getLsbD_extractLsb', BitVec.getLsbD_append]
    simp [hk]
  rw [decodeUnit_eq] at h
  cases u <;> dsimp only at h <;> (try split_ifs at h) <;> (try cases h) <;>
    simp only [Instr.unit, Instr.slotBits, Instr.longBits, low, high, true_and, reduceCtorEq,
      false_implies, and_true, implies_true] <;>
    exact slotOf_fields (by rw [‹s &&& slotMask = _›]; decide)

/-! ### A bundle and its slots -/

theorem bundleTemplate_bundleOf (t : Template) (s0 s1 s2 : SlotBits) :
    bundleTemplate (bundleOf t s0 s1 s2) = t := by
  apply BitVec.eq_of_getLsbD_eq
  intro i hi
  simp only [bundleTemplate, bundleOf, BitVec.getLsbD_extractLsb', BitVec.getLsbD_append]
  simp [hi]

theorem bundleSlot_bundleOf (t : Template) (s0 s1 s2 : SlotBits) (k : SlotIx) :
    bundleSlot (bundleOf t s0 s1 s2) k = if k = 0 then s0 else if k = 1 then s1 else s2 := by
  have cut (a : Nat) (s : SlotBits)
      (h : ∀ i < 41, (bundleOf t s0 s1 s2).getLsbD (a + i) = s.getLsbD i) :
      (bundleOf t s0 s1 s2).extractLsb' a 41 = s := by
    apply BitVec.eq_of_getLsbD_eq
    intro i hi
    simp [hi, h i hi]
  unfold bundleSlot
  split_ifs <;> apply cut <;> intro i hi <;> simp only [bundleOf, BitVec.getLsbD_append]
  · rw [if_neg (by omega), if_pos (by omega)]; congr 1; omega
  · rw [if_neg (by omega), if_neg (by omega), if_pos (by omega)]; congr 1; omega
  · rw [if_neg (by omega), if_neg (by omega), if_neg (by omega)]; congr 1; omega

/-- The table of codes gives each named type the units its letters spell (R65, R66). -/
theorem templateUnits_code (n : TemplateName) (stop : Bool) : templateUnits (n.code stop) = some n.units := by
  cases n <;> cases stop <;> decide

/-- An L slot is Slot 1 and an X slot is Slot 2 of the same two templates, 04 and 05 (R70). -/
theorem templateUnit_long (t : Template) :
    (∀ k, templateUnit t k = some .l ↔ k = 1 ∧ isMLX t) ∧
      (∀ k, templateUnit t k = some .x ↔ k = 2 ∧ isMLX t) := by
  revert t; decide

/-- What decodes as an instruction is one of the slot's own unit, or the L+X instruction of an MLX bundle at index 1. -/
theorem decodeSlot_instr {B : BundleBits} {k : SlotIx} {i : Instr} (h : decodeSlot B k = .instr i) :
    (i.unit = .x ∧ k = 1 ∧ isMLX (bundleTemplate B) = true) ∨
      (i.unit ≠ .x ∧ templateUnit (bundleTemplate B) k = some i.unit) := by
  have as {u : UnitType} {l s : SlotBits} (h : decodeAs u l s = .instr i) : i.unit = u := by
    unfold decodeAs at h
    split at h
    · cases h; exact (decodeUnit_some ‹_›).1
    · cases h
  unfold decodeSlot at h
  split at h
  · cases h
  · cases h
  · exact .inl ⟨as h, ((templateUnit_long _).1 k).mp ‹_›⟩
  · rename_i u hx hl hu
    have := as h
    subst this
    exact .inr ⟨fun hc => hx (by simp [hc]), hu⟩

end Sys2Proof
end

