-- ==== Sys2Proof/Laws/State.lean ====
section
/-!
SUPPORT. One lemma per field per update of the state, so that no proof unfolds a record update.
-/

namespace Sys2Proof.Machine

variable (s : State)

@[simp] theorem State.marked_ip (k : Mark) : (s.marked k).ip = s.ip := rfl
@[simp] theorem State.marked_ri (k : Mark) : (s.marked k).ri = s.ri := rfl
@[simp] theorem State.marked_rrbPr (k : Mark) : (s.marked k).rrbPr = s.rrbPr := rfl
@[simp] theorem State.marked_regs (k : Mark) : (s.marked k).regs = s.regs := rfl
@[simp] theorem State.marked_mark (k : Mark) : (s.marked k).mark = k := rfl
@[simp] theorem State.marked_text (k : Mark) : (s.marked k).text = s.text := rfl
@[simp] theorem State.marked_endIp (k : Mark) : (s.marked k).endIp = s.endIp := rfl

@[simp] theorem State.goto_ip (a : Word) (k : SlotIx) : (s.goto a k).ip = a := rfl
@[simp] theorem State.goto_ri (a : Word) (k : SlotIx) : (s.goto a k).ri = k := rfl
@[simp] theorem State.goto_rrbPr (a : Word) (k : SlotIx) : (s.goto a k).rrbPr = s.rrbPr := rfl
@[simp] theorem State.goto_regs (a : Word) (k : SlotIx) : (s.goto a k).regs = s.regs := rfl
@[simp] theorem State.goto_mark (a : Word) (k : SlotIx) : (s.goto a k).mark = s.mark := rfl
@[simp] theorem State.goto_text (a : Word) (k : SlotIx) : (s.goto a k).text = s.text := rfl
@[simp] theorem State.goto_endIp (a : Word) (k : SlotIx) : (s.goto a k).endIp = s.endIp := rfl

@[simp] theorem State.nextBundle_ip : s.nextBundle.ip = s.ip + 16 := rfl
@[simp] theorem State.nextBundle_ri : s.nextBundle.ri = 0 := rfl
@[simp] theorem State.nextBundle_rrbPr : s.nextBundle.rrbPr = s.rrbPr := rfl
@[simp] theorem State.nextBundle_regs : s.nextBundle.regs = s.regs := rfl
@[simp] theorem State.nextBundle_mark : s.nextBundle.mark = s.mark := rfl
@[simp] theorem State.nextBundle_text : s.nextBundle.text = s.text := rfl
@[simp] theorem State.nextBundle_endIp : s.nextBundle.endIp = s.endIp := rfl

@[simp] theorem State.nextSlot_ip : s.nextSlot.ip = if s.ri = 2 then s.ip + 16 else s.ip := by
  unfold State.nextSlot; split <;> rfl
@[simp] theorem State.nextSlot_ri : s.nextSlot.ri = if s.ri = 2 then 0 else s.ri + 1 := by
  unfold State.nextSlot; split <;> rfl
@[simp] theorem State.nextSlot_rrbPr : s.nextSlot.rrbPr = s.rrbPr := by
  unfold State.nextSlot; split <;> rfl
@[simp] theorem State.nextSlot_regs : s.nextSlot.regs = s.regs := by
  unfold State.nextSlot; split <;> rfl
@[simp] theorem State.nextSlot_mark : s.nextSlot.mark = s.mark := by
  unfold State.nextSlot; split <;> rfl
@[simp] theorem State.nextSlot_text : s.nextSlot.text = s.text := by
  unfold State.nextSlot; split <;> rfl
@[simp] theorem State.nextSlot_endIp : s.nextSlot.endIp = s.endIp := by
  unfold State.nextSlot; split <;> rfl

@[simp] theorem State.writePR_ip (j : Fin 64) (v : Bool) : (s.writePR j v).ip = s.ip := by
  unfold State.writePR; split <;> rfl
@[simp] theorem State.writePR_ri (j : Fin 64) (v : Bool) : (s.writePR j v).ri = s.ri := by
  unfold State.writePR; split <;> rfl
@[simp] theorem State.writePR_rrbPr (j : Fin 64) (v : Bool) : (s.writePR j v).rrbPr = s.rrbPr := by
  unfold State.writePR; split <;> rfl
@[simp] theorem State.writePR_mark (j : Fin 64) (v : Bool) : (s.writePR j v).mark = s.mark := by
  unfold State.writePR; split <;> rfl
@[simp] theorem State.writePR_text (j : Fin 64) (v : Bool) : (s.writePR j v).text = s.text := by
  unfold State.writePR; split <;> rfl
@[simp] theorem State.writePR_endIp (j : Fin 64) (v : Bool) : (s.writePR j v).endIp = s.endIp := by
  unfold State.writePR; split <;> rfl

@[simp] theorem Launch.start_ip (l : Launch) : l.start.ip = l.entryIp := rfl
@[simp] theorem Launch.start_ri (l : Launch) : l.start.ri = l.ri := rfl
@[simp] theorem Launch.start_rrbPr (l : Launch) : l.start.rrbPr = l.rrbPr := rfl
@[simp] theorem Launch.start_regs (l : Launch) : l.start.regs = l.regs := rfl
@[simp] theorem Launch.start_text (l : Launch) : l.start.text = l.text := rfl
@[simp] theorem Launch.start_endIp (l : Launch) : l.start.endIp = l.endIp := rfl
theorem Launch.start_mark (l : Launch) :
    l.start.mark = match l.error with | none => .running | some e => .refused (.badLaunch e) := rfl

/-- The bundle address of `ip`, where a table word is placed. -/
theorem State.withFetchWord_ip (nbits w : Nat) : (s.withFetchWord nbits w).ip = s.ip.extractLsb' 4 60 ++ 0#4 := rfl
@[simp] theorem State.withFetchWord_ri (nbits w : Nat) : (s.withFetchWord nbits w).ri = 0 := rfl
@[simp] theorem State.withFetchWord_rrbPr (nbits w : Nat) : (s.withFetchWord nbits w).rrbPr = s.rrbPr := rfl
@[simp] theorem State.withFetchWord_regs (nbits w : Nat) : (s.withFetchWord nbits w).regs = s.regs := rfl
@[simp] theorem State.withFetchWord_mark (nbits w : Nat) : (s.withFetchWord nbits w).mark = .running := rfl
theorem State.withFetchWord_text (nbits w : Nat) :
    (s.withFetchWord nbits w).text =
      s.text.memWrite (s.ip.extractLsb' 4 60 ++ 0#4) 16 (tableBundle nbits w) := rfl
theorem State.withFetchWord_endIp (nbits w : Nat) :
    (s.withFetchWord nbits w).endIp =
      if s.endIp = s.ip.extractLsb' 4 60 ++ 0#4 then s.ip.extractLsb' 4 60 ++ 0#4 + 16 else s.endIp := rfl

end Sys2Proof.Machine
end

