-- ==== Sys2Proof/Laws/Exec.lean ====
section
/-!
SUPPORT. What each shared operation, exec and step can answer, said once: later proofs cite these and unfold nothing.
-/

namespace Sys2Proof.Machine

/-- A bundle address is a multiple of 16 (R42). -/
theorem isBundleAddress_iff (a : Word) : isBundleAddress a = true ↔ a.toNat % 16 = 0 := by
  simp [isBundleAddress, ← BitVec.toNat_inj, BitVec.extractLsb'_toNat]

/-- The next bundle address is one (R94). -/
theorem add_16_aligned {a : Word} (h : a.toNat % 16 = 0) : (a + 16).toNat % 16 = 0 := by
  rw [BitVec.toNat_add, show (16 : Word).toNat = 16 from rfl]
  omega

/-- Taking a fault marks the state and changes nothing else (R124). -/
theorem State.raise_eq (s : State) (f : Word → SlotIx → Fault) :
    s.raise f = .next (s.marked (.faulted (f s.ip s.ri))) := rfl

/-- What a register's use answers: the fault of R30, or what its value is used for. -/
theorem Held.use_cases {α : Type} (h : Held α) (n : RegName) (s : State) (k : α → Result) :
    (h = .unwritten ∧ h.use n s k = s.raise (.unwrittenRegister n)) ∨ ∃ v, h = .val v ∧ h.use n s k = k v := by
  cases h with
  | unwritten => exact .inl ⟨rfl, rfl⟩
  | val v => exact .inr ⟨v, rfl, rfl⟩

/-! All that a read by an instruction can answer, file by file (R8, R30). -/

theorem State.useGR_cases (s : State) (n : Fin 128) (k : Word → Result) :
    (s.readGR n = .unwritten ∧ s.useGR n k = s.raise (.unwrittenRegister (.gr n))) ∨
      ∃ v, s.readGR n = .val v ∧ s.useGR n k = k v := Held.use_cases _ _ _ _
theorem State.useFR_cases (s : State) (n : Fin 128) (k : FpWord → Result) :
    (s.readFR n = .unwritten ∧ s.useFR n k = s.raise (.unwrittenRegister (.fr n))) ∨
      ∃ v, s.readFR n = .val v ∧ s.useFR n k = k v := Held.use_cases _ _ _ _
theorem State.useBR_cases (s : State) (n : Fin 8) (k : Word → Result) :
    (s.readBR n = .unwritten ∧ s.useBR n k = s.raise (.unwrittenRegister (.br n))) ∨
      ∃ v, s.readBR n = .val v ∧ s.useBR n k = k v := Held.use_cases _ _ _ _
theorem State.useAR_cases (s : State) (n : Fin 128) (k : Word → Result) :
    (s.readAR n = .unwritten ∧ s.useAR n k = s.raise (.unwrittenRegister (.ar n))) ∨
      ∃ v, s.readAR n = .val v ∧ s.useAR n k = k v := Held.use_cases _ _ _ _
theorem State.useCR_cases (s : State) (n : Fin 82) (k : Word → Result) :
    (s.readCR n = .unwritten ∧ s.useCR n k = s.raise (.unwrittenRegister (.cr n))) ∨
      ∃ v, s.readCR n = .val v ∧ s.useCR n k = k v := Held.use_cases _ _ _ _

/-- Predication when the predicate holds a value (R100). -/
theorem State.predicated_val {s : State} {p : PredNum} {v : Bool} (h : s.readPred p = .val v) (n : State)
    (e : Result) : s.predicated p n e = if v then e else .next n := by
  simp only [State.predicated, h, Held.use]

/-- Predication when the predicate holds no value (R30, R100). -/
theorem State.predicated_unwritten {s : State} {p : PredNum} (h : s.readPred p = .unwritten) (n : State)
    (e : Result) :
    s.predicated p n e = .next (s.marked (.faulted (.unwrittenRegister (.pr (predIndex p s.rrbPr)) s.ip s.ri))) := by
  simp only [State.predicated, h, Held.use, State.raise_eq]

/-- Predicate number 0 reads 1 (R17, R100). -/
theorem State.readPred_zero (s : State) : s.readPred 0 = .val true := rfl

/-- A predicate number from 16 up reads a rotating predicate (R17). -/
theorem predIndex_rotating {p : PredNum} (h : 16 ≤ p.toNat) (rrb : BitVec 6) :
    (predIndex p rrb).val = 16 + (p.toNat - 16 + rrb.toNat) % 48 := by
  rw [predIndex, if_neg (by omega)]

/-- A predicate number below 16 reads the predicate of that number (R17). -/
theorem predIndex_static {p : PredNum} (h : p.toNat < 16) (rrb : BitVec 6) :
    (predIndex p rrb).val = p.toNat := by
  rw [predIndex, if_pos h]

/-- The state after an instruction that completes: the next slot, or the next bundle after an L+X instruction (R94). -/
def State.after (s : State) (i : Instr) : State := if i.unit = .x then s.nextBundle else s.nextSlot

@[simp] theorem State.after_rrbPr (s : State) (i : Instr) : (s.after i).rrbPr = s.rrbPr := by
  unfold State.after; split <;> simp
@[simp] theorem State.after_regs (s : State) (i : Instr) : (s.after i).regs = s.regs := by
  unfold State.after; split <;> simp
@[simp] theorem State.after_mark (s : State) (i : Instr) : (s.after i).mark = s.mark := by
  unfold State.after; split <;> simp
@[simp] theorem State.after_text (s : State) (i : Instr) : (s.after i).text = s.text := by
  unfold State.after; split <;> simp
@[simp] theorem State.after_endIp (s : State) (i : Instr) : (s.after i).endIp = s.endIp := by
  unfold State.after; split <;> simp

/-- The value that a `break` reports, if the instruction is one (R106 to R110). -/
def reported : Instr → Option Word
  | .breakM _ v | .breakI _ v | .breakF _ v => some (info21 v)
  | .breakB _ v => some (infoB v)
  | .breakX _ v => some (info62 v)
  | .nopM _ _ | .nopI _ _ | .nopF _ _ | .nopB _ _ | .nopX _ _ => none

/-- What executing an instruction on predicate 1 answers: its fault if it is a `break`, else the advance. -/
def executed (i : Instr) (s : State) : Result :=
  match reported i with
  | some v => s.raise (.breakInstruction v)
  | none => .next (s.after i)

/-- Every instruction is predication over its own effect (R100 to R110). -/
theorem exec_eq (i : Instr) (s : State) : exec i s = s.predicated i.qp (s.after i) (executed i s) := by
  cases i <;> rfl

/-- All that an instruction can answer is a next state: the advance, the fault of its unwritten predicate, or, of a
`break` on predicate 1, its fault. -/
theorem exec_cases (i : Instr) (s : State) :
    (s.readPred i.qp = .unwritten ∧
        exec i s = .next (s.marked (.faulted
          (.unwrittenRegister (.pr (predIndex i.qp s.rrbPr)) s.ip s.ri)))) ∨
      (∃ v, s.readPred i.qp = .val v ∧ exec i s = .next (s.after i)) ∨
      (s.readPred i.qp = .val true ∧ ∃ w, reported i = some w ∧
        exec i s = .next (s.marked (.faulted (.breakInstruction w s.ip s.ri)))) := by
  rw [exec_eq]
  cases h : s.readPred i.qp with
  | unwritten => exact .inl ⟨rfl, State.predicated_unwritten h _ _⟩
  | val v =>
    rw [State.predicated_val h]
    cases v with
    | false => exact .inr (.inl ⟨false, rfl, rfl⟩)
    | true =>
      cases hr : reported i with
      | none => exact .inr (.inl ⟨true, rfl, by simp [executed, hr]⟩)
      | some w => exact .inr (.inr ⟨rfl, w, rfl, by simp [executed, hr, State.raise_eq]⟩)

/-- The step of a running state that stands at an instruction is exec of it (R90). -/
theorem step_instr {s : State} {B : BundleBits} {i : Instr} (hm : s.mark = .running)
    (he : ¬(s.ip = s.endIp ∧ s.ri = 0)) (ha : s.ip.toNat % 16 = 0) (hf : fetchBundle s.text s.ip = some B)
    (hd : decodeSlot B s.ri = .instr i) : step s = exec i s := by
  simp only [step, State.action, hm, State.runningAction, if_neg he, if_pos ((isBundleAddress_iff _).mpr ha), hf,
    State.actionOn, hd]

/-- All that a step which answers a next state can have done. -/
theorem step_cases {s t : State} (h : step s = .next t) :
    (s.mark = .final ∧ t = s) ∨
      (s.mark = .running ∧ s.ip = s.endIp ∧ s.ri = 0 ∧ t = s.marked .final) ∨
      (s.mark = .running ∧ ∃ f, t = s.marked (.faulted f) ∧ f.ip = s.ip ∧ f.ri = s.ri ∧
        ((∃ r, f = .unwrittenRegister r s.ip s.ri) → ∃ p, s.readPred p = .unwritten)) ∨
      (s.mark = .running ∧ s.ip.toNat % 16 = 0 ∧ ∃ B i, fetchBundle s.text s.ip = some B ∧
        decodeSlot B s.ri = .instr i ∧ t = s.after i) := by
  unfold step State.action at h
  cases hm : s.mark with
  | faulted f => simp [hm] at h
  | refused r => simp [hm] at h
  | final => simp only [hm] at h; cases h; exact .inl ⟨rfl, rfl⟩
  | running =>
    simp only [hm, State.runningAction] at h
    split_ifs at h with he ha
    · cases h; exact .inr (.inl ⟨rfl, he.1, he.2, rfl⟩)
    · cases hf : fetchBundle s.text s.ip with
      | none => simp [hf] at h
      | some B =>
        simp only [hf, State.actionOn] at h
        cases hd : decodeSlot B s.ri with
        | reservedTemplate c =>
          simp only [hd, State.raise_eq] at h; cases h
          exact .inr (.inr (.inl ⟨rfl, _, rfl, rfl, rfl, by rintro ⟨r, hr⟩; cases hr⟩))
        | slotTwoOfMLX => simp [hd] at h
        | unknownEncoding u b => simp [hd] at h
        | instr i =>
          simp only [hd] at h
          rcases exec_cases i s with ⟨hu, hx⟩ | ⟨v, -, hx⟩ | ⟨-, w, -, hx⟩
          · rw [hx] at h; cases h
            exact .inr (.inr (.inl ⟨rfl, _, rfl, rfl, rfl, fun _ => ⟨_, hu⟩⟩))
          · rw [hx] at h; cases h
            exact .inr (.inr (.inr ⟨rfl, (isBundleAddress_iff _).mp ha, B, i, rfl, hd, rfl⟩))
          · rw [hx] at h; cases h
            exact .inr (.inr (.inl ⟨rfl, _, rfl, rfl, rfl, by rintro ⟨r, hr⟩; cases hr⟩))

/-! ### Runs -/

theorem run_zero (s : State) : Host.Core.run core 0 s = .next s := rfl

theorem run_next {s u : State} (h : step s = .next u) (k : Nat) :
    Host.Core.run core (k + 1) s = Host.Core.run core k u := by
  have : core.step s = .next u := h
  simp only [Host.Core.run, this]

theorem run_fault {s : State} {f : Fault} (h : step s = .fault f) (k : Nat) :
    Host.Core.run core (k + 1) s = .fault f := by
  have : core.step s = .fault f := h
  simp only [Host.Core.run, this]

theorem run_refused {s : State} {r : Refusal} (h : step s = .refused r) (k : Nat) :
    Host.Core.run core (k + 1) s = .refused r := by
  have : core.step s = .refused r := h
  simp only [Host.Core.run, this]

/-- A relation that every state bears to itself, and that a step carries on, holds between the ends of every run. -/
theorem run_induction {P : State → State → Prop} (refl : ∀ s, P s s)
    (cons : ∀ s u t, step s = .next u → P u t → P s t) {k : Nat} {s t : State}
    (h : Host.Core.run core k s = .next t) : P s t := by
  induction k generalizing s with
  | zero => rw [run_zero] at h; cases h; exact refl _
  | succ k ih =>
    cases hs : step s with
    | next u => rw [run_next hs] at h; exact cons _ u _ hs (ih h)
    | fault f => rw [run_fault hs] at h; cases h
    | refused r => rw [run_refused hs] at h; cases h

end Sys2Proof.Machine
end

