-- ==== Sys2Proof/Laws/Memory.lean ====
section
/-!
SUPPORT. The laws of memory: a read after a write, the canonical form, and the fetch of a stored bundle (spec/00_scope.md
rule R8, spec/20_memory.md rule R41).
-/

namespace Sys2Proof.Machine

/-- A byte reads as written, and a write leaves every other address alone. -/
theorem Memory.read_write (m : Memory) (a x : Nat) (b : Byte) :
    (m.write a b).read x = if x = a then some b else m.read x := by
  induction m with
  | nil =>
    simp only [Memory.write, Memory.read, Memory.unlisted]
    split <;> split <;> first | rfl | omega | (split <;> first | rfl | omega)
  | cons c rest ih =>
    simp only [Memory.write]
    split_ifs with h1 h2 h3 h4 h5 <;> simp only [Memory.read, Memory.unlisted]
    all_goals first
      | (simp_all; done)
      | (split_ifs <;> simp_all <;> omega)

theorem Memory.mem_write {m : Memory} {a : Nat} {b : Byte} {c : Host.Cell} (h : c ∈ m.write a b) :
    c = (a, b) ∨ c ∈ m := by
  induction m with
  | nil => simpa [Memory.write] using h
  | cons d rest ih =>
    simp only [Memory.write] at h
    split_ifs at h with h1 h2
    · simpa using h
    · rcases List.mem_cons.mp h with h | h
      · exact .inl h
      · exact .inr (List.mem_cons_of_mem _ h)
    · rcases List.mem_cons.mp h with h | h
      · exact .inr (by simp [h])
      · rcases ih h with h | h
        · exact .inl h
        · exact .inr (List.mem_cons_of_mem _ h)

/-- A write to an address of the address space keeps the canonical form. -/
theorem Memory.wf_write {m : Memory} {a : Nat} (b : Byte) (hm : m.wf) (ha : a < 2 ^ 64) :
    (m.write a b).wf := by
  obtain ⟨hs, hb⟩ := hm
  refine ⟨?_, fun c hc => ?_⟩
  · clear hb ha
    induction m with
    | nil => simp [Memory.write]
    | cons d rest ih =>
      obtain ⟨hd, hr⟩ := List.pairwise_cons.mp hs
      simp only [Memory.write]
      split_ifs with h1 h2
      · refine List.pairwise_cons.mpr ⟨fun c hc => ?_, hs⟩
        rcases List.mem_cons.mp hc with hc | hc
        · simpa [hc] using h1
        · exact lt_trans h1 (hd c hc)
      · exact List.pairwise_cons.mpr ⟨fun c hc => by simpa [h2] using hd c hc, hr⟩
      · refine List.pairwise_cons.mpr ⟨fun c hc => ?_, ih hr⟩
        rcases Memory.mem_write hc with hc | hc
        · simp only [hc]; omega
        · exact hd c hc
  · rcases Memory.mem_write hc with hc | hc
    · simpa [hc] using ha
    · exact hb c hc

/-- Storing bytes keeps the canonical form, wherever they wrap. -/
theorem Memory.wf_writeBytes {m : Memory} (hm : m.wf) (a : Word) (bs : List Byte) :
    (m.writeBytes a bs).wf := by
  induction bs generalizing m a with
  | nil => exact hm
  | cons b bs ih => exact ih (Memory.wf_write b hm a.isLt) (a + 1)

theorem Memory.wf_memWrite {m : Memory} (hm : m.wf) (a : Word) (n : Nat) (v : BitVec (8 * n)) :
    (m.memWrite a n v).wf := Memory.wf_writeBytes hm a _

/-- The address after the first, and `k` more. -/
theorem succ_add_ofNat (a : Word) (k : Nat) : a + 1 + BitVec.ofNat 64 k = a + BitVec.ofNat 64 (k + 1) := by
  rw [BitVec.add_assoc, Nat.add_comm k 1, BitVec.ofNat_add]; rfl

/-- An address `k` past another is another one, short of the way round the address space. -/
theorem toNat_add_ne {a : Word} {k : Nat} (h0 : 0 < k) (h : k < 2 ^ 64) :
    a.toNat ≠ (a + BitVec.ofNat 64 k).toNat := by
  rw [BitVec.toNat_add, BitVec.toNat_ofNat, Nat.mod_eq_of_lt h]
  have := a.isLt
  omega

/-- Stored bytes leave every address outside them alone. -/
theorem Memory.read_writeBytes_other {m : Memory} {a : Word} {bs : List Byte} {x : Nat}
    (h : ∀ k < bs.length, x ≠ (a + BitVec.ofNat 64 k).toNat) : (m.writeBytes a bs).read x = m.read x := by
  induction bs generalizing m a with
  | nil => rfl
  | cons b bs ih =>
    rw [Memory.writeBytes, ih, Memory.read_write, if_neg]
    · simpa using h 0 (by simp)
    · intro k hk
      rw [succ_add_ofNat]
      exact h (k + 1) (by simpa using hk)

/-- Bytes read back as stored, while they do not reach round the address space. -/
theorem Memory.readBytes_writeBytes (m : Memory) (a : Word) (bs : List Byte) (h : bs.length ≤ 2 ^ 64) :
    (m.writeBytes a bs).readBytes a bs.length = some bs := by
  induction bs generalizing m a with
  | nil => rfl
  | cons b bs ih =>
    have hlen : bs.length < 2 ^ 64 := h
    have hb : ((m.write a.toNat b).writeBytes (a + 1) bs).read a.toNat = some b := by
      rw [Memory.read_writeBytes_other, Memory.read_write, if_pos rfl]
      intro k hk
      rw [succ_add_ofNat]
      exact toNat_add_ne (by omega) (by omega)
    simp only [Memory.writeBytes, List.length_cons, Memory.readBytes]
    rw [hb, ih _ _ hlen.le]

theorem natToBytes_length (n v : Nat) : (natToBytes n v).length = n := by
  induction n generalizing v with
  | zero => rfl
  | succ n ih => simp [natToBytes, ih]

/-- The bytes of a number make it again, within their width. -/
theorem bytesToNat_natToBytes (n v : Nat) : bytesToNat (natToBytes n v) = v % 256 ^ n := by
  induction n generalizing v with
  | zero => simp [natToBytes, bytesToNat, Nat.mod_one]
  | succ n ih =>
    simp only [natToBytes, bytesToNat, BitVec.toNat_ofNat, ih]
    have : 256 ^ (n + 1) = 256 * 256 ^ n := by ring
    rw [this, Nat.mod_mul]

/-- `MemRead` after `MemWrite` to the same place gives the value written (R8). -/
theorem Memory.memRead_memWrite (m : Memory) (a : Word) (n : Nat) (v : BitVec (8 * n)) (h : n ≤ 2 ^ 64) :
    (m.memWrite a n v).memRead a n = some v := by
  have hb := Memory.readBytes_writeBytes m a (natToBytes n v.toNat) (by rwa [natToBytes_length])
  rw [natToBytes_length] at hb
  have hv : v.toNat % 256 ^ n = v.toNat := by
    refine Nat.mod_eq_of_lt ?_
    have := v.isLt
    rwa [Nat.pow_mul] at this
  simp only [Memory.memRead, Memory.memWrite, hb, Option.map_some, bytesToNat_natToBytes, hv,
    BitVec.ofNat_toNat, BitVec.setWidth_eq]

/-- A stored bundle is fetched (R41). -/
theorem fetchBundle_memWrite (m : Memory) (a : Word) (B : BundleBits) :
    fetchBundle (m.memWrite a 16 B) a = some B :=
  Memory.memRead_memWrite m a 16 B (by norm_num)

/-- A text laid out from bundles is in canonical form. -/
theorem textOf_wf (bundles : List (Word × BundleBits)) : (textOf bundles).wf := by
  induction bundles with
  | nil => simp [textOf, Memory.wf]
  | cons p rest ih => exact Memory.wf_memWrite ih p.1 16 p.2

/-- The memory at reset is in canonical form. -/
theorem reset_text_wf : State.reset.text.wf := textOf_wf []

end Sys2Proof.Machine
end

