-- ==== Sys2Proof/Laws/PerInstr.lean ====
section
/-!
SUPPORT. Statements made per instruction. SlotRoundTrip: the slots an instruction is encoded as are matched by its own row
of the opcode table and no other, and decode to it (spec/30_encoding.md rules R73 to R75, R80).
-/

namespace Sys2Proof.Laws.SlotRoundTrip

/-- The instruction's slots decode, for its unit, to it; they are one slot, or two for an L+X instruction. -/
def Statement (i : Instr) : Prop :=
  decodeUnit i.unit i.longBits i.slotBits = some i ∧ (encode i).length = if i.unit = .x then 2 else 1

theorem nopM (qp : PredNum) (imm : BitVec 21) : Statement (.nopM qp imm) := ⟨decodeUnit_slotBits _, rfl⟩
theorem nopI (qp : PredNum) (imm : BitVec 21) : Statement (.nopI qp imm) := ⟨decodeUnit_slotBits _, rfl⟩
theorem nopF (qp : PredNum) (imm : BitVec 21) : Statement (.nopF qp imm) := ⟨decodeUnit_slotBits _, rfl⟩
theorem nopB (qp : PredNum) (imm : BitVec 21) : Statement (.nopB qp imm) := ⟨decodeUnit_slotBits _, rfl⟩
theorem nopX (qp : PredNum) (imm : BitVec 62) : Statement (.nopX qp imm) := ⟨decodeUnit_slotBits _, rfl⟩
theorem breakM (qp : PredNum) (imm : BitVec 21) : Statement (.breakM qp imm) := ⟨decodeUnit_slotBits _, rfl⟩
theorem breakI (qp : PredNum) (imm : BitVec 21) : Statement (.breakI qp imm) := ⟨decodeUnit_slotBits _, rfl⟩
theorem breakF (qp : PredNum) (imm : BitVec 21) : Statement (.breakF qp imm) := ⟨decodeUnit_slotBits _, rfl⟩
theorem breakB (qp : PredNum) (imm : BitVec 21) : Statement (.breakB qp imm) := ⟨decodeUnit_slotBits _, rfl⟩
theorem breakX (qp : PredNum) (imm : BitVec 62) : Statement (.breakX qp imm) := ⟨decodeUnit_slotBits _, rfl⟩

end Sys2Proof.Laws.SlotRoundTrip
end

