-- ==== Sys2Proof/Tests/Slice0.lean ====
section
/-!
SUPPORT. Tests, and the witnesses of the statements. Every expected value is from spec/95_test_vectors.md (the section is
named) or worked out by hand from the rule named. A witness shows a concrete state that meets all the hypotheses of a
statement; where a statement has several clauses there is one for each, at the ends of its range.
-/

namespace Sys2Proof.Tests

open Sys2Proof Sys2Proof.Machine

/-! ### Small states -/

/-- A reset machine with bundles in its text, standing at a slot, the run ending at `endIp`. -/
def at_ (bundles : List (Word × BundleBits)) (ip : Word) (ri : SlotIx) (endIp : Word) : State :=
  { State.reset with ip := ip, ri := ri, endIp := endIp, text := textOf bundles }

/-- The same with every register unwritten, as a launch with no premise leaves them (R31). -/
def bare (s : State) : State := { s with regs := Regs.allUnwritten }

/-- Where a result leaves the machine, if it is a next state. -/
def place : Result → Option (Word × SlotIx × Mark)
  | .next t => some (t.ip, t.ri, t.mark)
  | .fault _ => none
  | .refused _ => none

/-- The reason of a refusal. -/
def refusal : Result → Option Refusal
  | .next _ => none
  | .fault _ => none
  | .refused r => some r

/-- The fault of a stop. -/
def stopped : Result → Option Fault
  | .next _ => none
  | .fault f => some f
  | .refused _ => none

/-- Three `nop`s, template 00 (section 2.2). -/
def nops : BundleBits := 0x00040000000002000000000100000000
/-- `nop.m 0` and `nop.x 0`, template 04 (section 2.2). -/
def longNop : BundleBits := 0x00040000000000000000000100000004
/-- `nop.m 0` and `break.x 0x2aaaaaaaaab55555`, template 05 (section 3, P3). -/
def longBreak : BundleBits := 0x0800aaaaa05555555555400100000005
/-- `(p17) nop.m 0`, `(p63) break.i 9`, `nop.i 0`, template 01 (section 2.7). -/
def rotating : BundleBits := 0x0004000000000000009fc00100000221
/-- An undecodable Slot 1, template 00 (section 3, P5). -/
def unknown : BundleBits := 0x00040000004000000000000100000000
/-- Template 06, blank in the table (section 2.3). -/
def reserved : BundleBits := 0x00000000000000000000000000000006

/-! ### Well-formedness: an ill-formed term for each check, which the check refuses -/

theorem test_wf_three : (Bundle.three .mii false (.nopM 0 0) (.nopI 0 0) (.nopI 0 0)).wellFormed = true := by decide
theorem test_wf_long : (Bundle.long true (.nopM 0 0) (.breakX 0 7)).wellFormed = true := by decide
theorem test_ill_three_in_mlx :
    (Bundle.three .mlx false (.nopM 0 0) (.nopI 0 0) (.nopX 0 0)).wellFormed = false := by decide
theorem test_ill_slot0 :
    (Bundle.three .mii false (.nopB 0 0) (.nopI 0 0) (.nopI 0 0)).wellFormed = false := by decide
theorem test_ill_slot1 :
    (Bundle.three .mfi false (.nopM 0 0) (.nopI 0 0) (.nopI 0 0)).wellFormed = false := by decide
theorem test_ill_slot2 :
    (Bundle.three .mib false (.nopM 0 0) (.nopI 0 0) (.nopI 0 0)).wellFormed = false := by decide
theorem test_ill_long_slot0 : (Bundle.long false (.nopI 0 0) (.nopX 0 0)).wellFormed = false := by decide
theorem test_ill_long_x : (Bundle.long false (.nopM 0 0) (.nopI 0 0)).wellFormed = false := by decide
theorem test_ill_instr : ¬(Instr.nopB 0 0).WellFormed .m := by decide
theorem test_type_stands (i : Instr) : i.type.mayStandIn i.unit = true := by cases i <;> rfl

/-! ### Decoding (sections 2.1, 2.4 to 2.6, 2.8): every constructor, by words written out in the spec -/

theorem test_fields :
    bundleTemplate 0xaaaaaad5553fb72ea61da468acf13570 = 0x10 ∧
      bundleSlot 0xaaaaaad5553fb72ea61da468acf13570 0 = 0x123456789ab ∧
      bundleSlot 0xaaaaaad5553fb72ea61da468acf13570 1 = 0x0fedcba9876 ∧
      bundleSlot 0xaaaaaad5553fb72ea61da468acf13570 2 = 0x1555555aaaa := by decide
theorem test_bytes :
    decodeBytes [0x00, 0x00, 0x00, 0x00, 0x01, 0x00, 0x00, 0x00, 0x00, 0x02, 0x00, 0x00, 0x00, 0x00, 0x04, 0x00] 1
      = some (.instr (.nopI 0 0)) := by decide
theorem test_bytes_order :
    bundleBytes 0xaaaaaad5553fb72ea61da468acf13570
      = [0x70, 0x35, 0xf1, 0xac, 0x68, 0xa4, 0x1d, 0xa6, 0x2e, 0xb7, 0x3f, 0x55, 0xd5, 0xaa, 0xaa, 0xaa] := by decide
theorem test_too_few_bytes : decodeBytes [0x00, 0x00] 0 = none := by decide
theorem test_decode_nopM : decodeUnit .m 0 0x00008000011 = some (.nopM 17 0) := by decide
theorem test_decode_nopI : decodeUnit .i 0 0x0100bffffff = some (.nopI 63 0x1fffff) := by decide
theorem test_decode_nopF : decodeUnit .f 0 0x00008000080 = some (.nopF 0 2) := by decide
theorem test_decode_nopB : decodeUnit .b 0 0x040000000c0 = some (.nopB 0 3) := by decide
theorem test_decode_nopX : decodeUnit .x 0x1 0x00008000000 = some (.nopX 0 0x200000) := by decide
theorem test_decode_breakM : decodeUnit .m 0 0x01003ffffc0 = some (.breakM 0 0x1fffff) := by decide
theorem test_decode_breakI : decodeUnit .i 0 0x01002af3782 = some (.breakI 2 0x1abcde) := by decide
theorem test_decode_breakF : decodeUnit .f 0 0x00000000140 = some (.breakF 0 5) := by decide
theorem test_decode_breakB : decodeUnit .b 0 0x01003ffffc0 = some (.breakB 0 0x1fffff) := by decide
theorem test_decode_breakX : decodeSlot longBreak 1 = .instr (.breakX 0 0x2aaaaaaaaab55555) := by decide
theorem test_refuse_opcode8 : decodeSlot unknown 1 = .unknownEncoding .i 0x10000000000 := by decide
theorem test_refuse_hint : decodeUnit .i 0 0x0000c000000 = none := by decide
theorem test_refuse_z3 : decodeUnit .m 0 0x00200000000 = none := by decide
theorem test_refuse_x6 : decodeUnit .m 0 0x00010000000 = none := by decide
theorem test_refuse_movl : decodeUnit .x 0 0x0c000000000 = none := by decide
theorem test_refuse_slot2_of_mlx : decodeSlot longBreak 2 = .slotTwoOfMLX := by decide
theorem test_reserved : decodeSlot 0x0004000000400000000000010000001e 1 = .reservedTemplate 0x1E := by decide

/-! ### Encoding (sections 2.2, 3) -/

theorem test_encode_p1 :
    (Bundle.three .mfb true (.nopM 0 1) (.nopF 0 2) (.nopB 0 3)).encode = 0x2000000060000200002000010000081d := by decide
theorem test_encode_p3 :
    (Bundle.long true (.nopM 0 0) (.breakX 0 0x2aaaaaaaaab55555)).encode = longBreak := by decide
theorem test_encode_bbb :
    (Bundle.three .bbb true (.nopB 0 0) (.breakB 0 5) (.nopB 0 0)).encode = 0x20000000000000000050080000000017 := by decide
theorem test_encode_words : encode (.nopX 0 0x3fffffffffffffff) = [0x1ffffffffff, 0x0100bffffc0] := by decide
theorem test_stops : stopAfter 0x1D 2 = true ∧ stopAfter 0x1C 2 = false ∧ stopAfter 0x02 1 = true ∧
    stopAfter 0x0B 0 = true ∧ stopAfter 0x06 2 = false ∧ stopAfter 0x1F 2 = false := by decide
theorem test_mnemonic : (Instr.breakI 1 0x12345).asm = "(p1) break.i 0x12345" := by decide

/-! ### One step of each instruction (section 2.9 for the advance, 2.4 and 2.5 for the outcomes) -/

theorem test_nopM : place (exec (.nopM 0 1) (at_ [] 0x1000 0 0)) = some (0x1000, 1, .running) := by decide
theorem test_nopI : place (exec (.nopI 0 0) (at_ [] 0x1000 2 0)) = some (0x1010, 0, .running) := by decide
theorem test_nopF : place (exec (.nopF 0 2) (at_ [] 0x1000 1 0)) = some (0x1000, 2, .running) := by decide
theorem test_nopB_wraps :
    place (exec (.nopB 0 3) (at_ [] 0xfffffffffffffff0 2 8)) = some (0, 0, .running) := by decide
theorem test_nopX : place (exec (.nopX 0 0x3fffffffffffffff) (at_ [] 0x1000 1 0)) = some (0x1010, 0, .running) := by decide
theorem test_nop_under_unwritten :
    place (exec (.nopM 17 0) (bare (at_ [] 0x8000 0 0)))
      = some (0x8000, 0, .faulted (.unwrittenRegister (.pr 17) 0x8000 0)) := by decide
theorem test_breakM : place (exec (.breakM 0 0x1fffff) (at_ [] 0x1000 0 0))
    = some (0x1000, 0, .faulted (.breakInstruction 0x1fffff 0x1000 0)) := by decide
theorem test_breakI : place (exec (.breakI 0 0x100000) (at_ [] 0x2010 1 0))
    = some (0x2010, 1, .faulted (.breakInstruction 0x100000 0x2010 1)) := by decide
theorem test_breakI_nullified : place (exec (.breakI 1 0x12345) (at_ [] 0x2000 1 0)) = some (0x2000, 2, .running) := by
  decide
theorem test_breakF : place (exec (.breakF 0 5) (at_ [] 0 1 8))
    = some (0, 1, .faulted (.breakInstruction 5 0 1)) := by decide
theorem test_breakB : place (exec (.breakB 0 5) (at_ [] 0x6010 1 0))
    = some (0x6010, 1, .faulted (.breakInstruction 0 0x6010 1)) := by decide
theorem test_breakX : place (exec (.breakX 0 0x3fffffffffffffff) (at_ [] 0x3000 1 0))
    = some (0x3000, 1, .faulted (.breakInstruction 0x3fffffffffffffff 0x3000 1)) := by decide
theorem test_breakX_nullified : place (exec (.breakX 1 7) (at_ [] 0x3000 1 0)) = some (0x3010, 0, .running) := by decide

/-! ### Renaming (section 2.7) and the hardwired registers (R11, R17) -/

theorem test_rename : predIndex 15 47 = 15 ∧ predIndex 16 0 = 16 ∧ predIndex 16 47 = 63 ∧ predIndex 17 2 = 19 ∧
    predIndex 63 0 = 63 ∧ predIndex 63 1 = 16 ∧ predIndex 63 2 = 17 ∧ predIndex 40 30 = 22 := by decide
theorem test_pr0 : (State.reset.writePR 0 false).readPred 0 = .val true := by decide
theorem test_pr63 : (State.reset.writePR 63 true).readPred 63 = .val true := by decide
theorem test_pr1 : (State.reset.writePR 1 true).readPred 1 = .val true := by decide
theorem test_gr0 : State.reset.readGR 0 = .val 0 ∧
    place (State.reset.writeGR 0 5) = some (0, 0, .faulted (.illegalOperation .writeGR0 0 0)) := by decide

/-! ### The step (sections 2.3, 2.7 to 2.10), each a clause of ChecksOfStepInOrder -/

/-- The hypotheses of ChecksOfStepInOrder. -/
def ready (s : State) : Bool := s.mark = .running && s.ip.toNat % 16 = 0

theorem test_step_final :
    ready (at_ [] 0x1020 0 0x1020) = true ∧ place (step (at_ [] 0x1020 0 0x1020)) = some (0x1020, 0, .final) := by decide
theorem test_step_noText :
    ready (at_ [] 0x1020 0 0x1030) = true ∧
      refusal (step (at_ [] 0x1020 0 0x1030)) = some (.noText 0x1020) := by decide
theorem test_step_not_final_at_slot1 :
    refusal (step (at_ [] 0x1020 1 0x1020)) = some (.noText 0x1020) := by decide
theorem test_step_reserved :
    ready (at_ [(0x4010, reserved)] 0x4010 2 0) = true ∧
      place (step (at_ [(0x4010, reserved)] 0x4010 2 0))
        = some (0x4010, 2, .faulted (.illegalOperation (.reservedTemplate 0x06) 0x4010 2)) := by decide
theorem test_step_slotTwoOfMLX :
    ready (at_ [(0x3000, longBreak)] 0x3000 2 0) = true ∧
      refusal (step (at_ [(0x3000, longBreak)] 0x3000 2 0)) = some (.badLaunch .slotTwoOfMLX) := by decide
theorem test_step_unknown :
    ready (at_ [(0x5000, unknown)] 0x5000 1 0) = true ∧
      refusal (step (at_ [(0x5000, unknown)] 0x5000 1 0)) = some (.unknownEncoding .i 0x10000000000) := by decide
theorem test_step_unwritten :
    ready (bare (at_ [(0x8000, rotating)] 0x8000 1 0)) = true ∧
      place (step (bare (at_ [(0x8000, rotating)] 0x8000 1 0)))
        = some (0x8000, 1, .faulted (.unwrittenRegister (.pr 63) 0x8000 1)) := by decide
theorem test_step_break :
    ready ((at_ [(0x8000, rotating)] 0x8000 1 0).writePR 63 true) = true ∧
      place (step ((at_ [(0x8000, rotating)] 0x8000 1 0).writePR 63 true))
        = some (0x8000, 1, .faulted (.breakInstruction 9 0x8000 1)) := by decide
theorem test_step_break_renamed :
    place (step { (at_ [(0x8000, rotating)] 0x8000 1 0).writePR 16 true with rrbPr := 1 })
      = some (0x8000, 1, .faulted (.breakInstruction 9 0x8000 1)) := by decide
theorem test_step_nullified :
    ready (at_ [(0x8000, rotating)] 0x8000 1 0) = true ∧
      place (step (at_ [(0x8000, rotating)] 0x8000 1 0)) = some (0x8000, 2, .running) := by decide
theorem test_step_long :
    ready (at_ [(0x1000, longNop)] 0x1000 1 0) = true ∧
      place (step (at_ [(0x1000, longNop)] 0x1000 1 0)) = some (0x1010, 0, .running) := by decide
theorem test_step_slot2 :
    ready (at_ [(0x1000, nops)] 0x1000 2 0) = true ∧
      place (step (at_ [(0x1000, nops)] 0x1000 2 0)) = some (0x1010, 0, .running) := by decide
theorem test_step_zero_bundle :
    place (step (at_ [(0x1000, 0)] 0x1000 0 0)) = some (0x1000, 0, .faulted (.breakInstruction 0 0x1000 0)) := by decide
theorem test_step_misaligned : refusal (step (at_ [] 0x1008 0 0)) = some (.badLaunch .misalignedEntry) := by decide
theorem test_step_faulted :
    stopped (step (State.reset.marked (.faulted (.breakInstruction 5 0 0)))) = some (.breakInstruction 5 0 0) := by decide

/-- One state for all the hypotheses; the tests above are the clauses. -/
theorem witness_ChecksOfStepInOrder : (at_ [(0x1000, nops)] 0x1000 2 0).mark = .running ∧
    (at_ [(0x1000, nops)] 0x1000 2 0).ip.toNat % 16 = 0 := by decide

/-! ### A table word placed at reset (R101, R104, R106) -/

theorem test_word_nopM : decodeTableWord 48 0x00008000040 = some (.nopM 0 1) ∧
    place (step (State.reset.withFetchWord 48 0x00008000040)) = some (0, 1, .running) := by decide
theorem test_word_nopB : decodeTableWord 48 0x040000000c0 = some (.nopB 0 3) ∧
    place (step (State.reset.withFetchWord 48 0x040000000c0)) = some (0, 1, .running) := by decide
theorem test_word_breakM : decodeTableWord 48 0 = some (.breakM 0 0) ∧
    place (step (State.reset.withFetchWord 48 0)) = some (0, 0, .faulted (.breakInstruction 0 0 0)) := by decide
theorem test_word_unknown : decodeTableWord 48 0x10000000000 = none := by decide

/-! ### Launches (section 2.9) -/

/-- The launch of section 3, P3. -/
def launchP3 : Launch :=
  { text := textOf [(0x3000, longBreak)], entryIp := 0x3000, endIp := 0x3010, ri := 0, rrbPr := 0, regs := Regs.reset }

/-- A launch that gives text and addresses only (R141): slot 0, no rename, no predicate but PR0. -/
theorem test_launch_defaults :
    let s := ({ text := [], entryIp := 0x1000, endIp := 0x1020 } : Launch).start
    s.ri = 0 ∧ s.rrbPr = 0 ∧ s.readPR 1 = .unwritten ∧ s.readPR 0 = .val true ∧ s.mark = .running := by decide
theorem test_launch_good : launchP3.start.mark = .running := by decide
theorem test_launch_entry :
    ({ launchP3 with entryIp := 0x1008 } : Launch).start.mark = .refused (.badLaunch .misalignedEntry) := by decide
theorem test_launch_end :
    ({ launchP3 with endIp := 0x1028 } : Launch).start.mark = .refused (.badLaunch .misalignedEnd) := by decide
theorem test_launch_rrb :
    ({ launchP3 with rrbPr := 48 } : Launch).start.mark = .refused (.badLaunch .badRrbPr) ∧
      ({ launchP3 with rrbPr := 47 } : Launch).start.mark = .running := by decide
theorem test_launch_slot2 :
    ({ launchP3 with ri := 2 } : Launch).start.mark = .refused (.badLaunch .slotTwoOfMLX) := by decide

/-! ### Witnesses: the hypotheses of each statement are met -/

theorem witness_StepRunsDecodedInstruction :
    let s := at_ [(0x1000, nops)] 0x1000 1 0x1020
    s.mark = .running ∧ ¬(s.ip = s.endIp ∧ s.ri = 0) ∧ s.ip.toNat % 16 = 0 ∧
      fetchBundle s.text s.ip = some nops ∧ decodeSlot nops s.ri = .instr (.nopI 0 0) := by decide

/-- All four ends of the rule: Slots 0 and 2, and index 1 with and without an MLX template. -/
theorem witness_AdvanceAfterInstruction :
    (∀ k : SlotIx,
      let s := at_ [(0x1000, nops)] 0x1000 k 0x1020
      s.mark = .running ∧ fetchBundle s.text s.ip = some nops ∧
        place (step s) = some (if k = 2 then 0x1010 else 0x1000, if k = 2 then 0 else k + 1, .running)) ∧
      (let s := at_ [(0x1000, longNop)] 0x1000 1 0x1020
       s.mark = .running ∧ fetchBundle s.text s.ip = some longNop ∧
        place (step s) = some (0x1010, 0, .running)) := by decide

/-- At the end, at another slot of its bundle, and at slot 0 of another bundle. -/
theorem witness_RunEndsAtEndIp :
    let s := at_ [] 0x1020 0 0x1020
    let s' := at_ [(0x1020, nops)] 0x1020 1 0x1020
    let s2 := at_ [(0x1020, nops)] 0x1020 0 0x1030
    s.mark = .running ∧ s.ip = s.endIp ∧ s.ri = 0 ∧
      s'.mark = .running ∧ s'.ip = s'.endIp ∧ s'.ri ≠ 0 ∧ place (step s') = some (0x1020, 2, .running) ∧
      s2.mark = .running ∧ s2.ip ≠ s2.endIp ∧ s2.ri = 0 ∧ place (step s2) = some (0x1020, 1, .running) := by decide

theorem witness_TerminalStatesStay :
    (State.reset.marked (.faulted (.breakInstruction 5 0 0))).mark = .faulted (.breakInstruction 5 0 0) ∧
      (State.reset.marked (.refused (.noText 0))).mark = .refused (.noText 0) ∧
      (State.reset.marked .final).mark = .final := by decide

/-- Each kind of stop happens: a fault kept, a refusal kept, and the four refusals of a running state. -/
theorem witness_OnlyTheseStops :
    stopped (step (State.reset.marked (.faulted (.breakInstruction 5 0 0)))) = some (.breakInstruction 5 0 0) ∧
      refusal (step (State.reset.marked (.refused (.noText 0x30)))) = some (.noText 0x30) ∧
      refusal (step (at_ [] 0x1020 0 0)) = some (.noText 0x1020) ∧
      refusal (step (at_ [(0x5000, unknown)] 0x5000 1 0)) = some (.unknownEncoding .i 0x10000000000) ∧
      refusal (step (at_ [(0x3000, longBreak)] 0x3000 2 0)) = some (.badLaunch .slotTwoOfMLX) ∧
      refusal (step (at_ [] 0x1008 0 0)) = some (.badLaunch .misalignedEntry) := by decide

/-- Predicates that read 1, 0, and nothing. -/
theorem witness_predicates :
    State.reset.readPred 0 = .val true ∧ State.reset.readPred 63 = .val false ∧
      (State.reset.writePR 63 true).readPred 63 = .val true ∧ (bare State.reset).readPred 1 = .unwritten := by decide

theorem witness_NopOfOneSlotOnlyAdvances : State.reset.readPred 63 = .val false ∧ State.reset.readPred 0 = .val true := by
  decide
theorem witness_NopXGoesToNextBundle : State.reset.readPred 0 = .val true := by decide
theorem witness_BreakMIFReportsItsImmediate : (State.reset.writePR 63 true).readPred 63 = .val true := by decide
theorem witness_BreakBReportsZero : State.reset.readPred 0 = .val true := by decide
theorem witness_BreakXReportsItsImmediate : State.reset.readPred 0 = .val true := by decide
theorem witness_NullifiedBreakOnlyAdvances :
    (∀ i ∈ [Instr.breakM 1 5, .breakI 1 5, .breakF 1 5, .breakB 1 5, .breakX 63 5],
      i.isNop = false ∧ State.reset.readPred i.qp = .val false) := by decide
theorem witness_UnwrittenPredicateFaults :
    (bare State.reset).readPred (Instr.nopM 1 0).qp = .unwritten ∧
      (bare State.reset).readPred (Instr.breakX 63 0).qp = .unwritten := by decide

/-- The frame of `nop`, both clauses of the mark: an advance, and the fault of an unwritten predicate. -/
theorem witness_NopFrame :
    (Instr.nopM 1 0).isNop = true ∧ place (exec (.nopM 1 0) State.reset) = some (0, 1, .running) ∧
      place (exec (.nopM 1 0) (bare State.reset))
        = some (0, 0, .faulted (.unwrittenRegister (.pr 1) 0 0)) := by decide

/-- The frame of `break`, both clauses of the mark. -/
theorem witness_BreakFrame :
    (Instr.breakM 1 0).isNop = false ∧ place (exec (.breakM 1 0) State.reset) = some (0, 1, .running) ∧
      place (exec (.breakM 0 5) State.reset) = some (0, 0, .faulted (.breakInstruction 5 0 0)) := by decide

theorem witness_OnlyThePredicateIsRead :
    (bare State.reset).readPred (Instr.breakM 0 5).qp = State.reset.readPred (Instr.breakM 0 5).qp ∧
      place (exec (.breakM 0 5) State.reset) = some (0, 0, .faulted (.breakInstruction 5 0 0)) := by decide

theorem witness_ReservedTemplateFaults :
    ∀ t ∈ [0x06#5, 0x1F#5],
      let s := at_ [(0x4010, bundleOf t 0 0 0x1ffffffffff)] 0x4010 1 0
      s.mark = .running ∧ ¬(s.ip = s.endIp ∧ s.ri = 0) ∧ s.ip.toNat % 16 = 0 ∧
        fetchBundle s.text s.ip = some (bundleOf t 0 0 0x1ffffffffff) := by decide

/-- Both clauses: an I slot, and an L slot with an X slot that nothing matches (section 2.8). -/
theorem witness_UnknownEncodingRefused :
    (let s := at_ [(0x5000, unknown)] 0x5000 1 0
     s.mark = .running ∧ ¬(s.ip = s.endIp ∧ s.ri = 0) ∧ s.ip.toNat % 16 = 0 ∧
       fetchBundle s.text s.ip = some unknown ∧ templateUnit (bundleTemplate unknown) s.ri = some .i ∧
       decodeUnit .i 0 (bundleSlot unknown s.ri) = none) ∧
      (let B := bundleOf 0x04 0x00008000000 0 0x0c000000000
       let s := at_ [(0x5000, B)] 0x5000 1 0
       s.mark = .running ∧ ¬(s.ip = s.endIp ∧ s.ri = 0) ∧ s.ip.toNat % 16 = 0 ∧
         fetchBundle s.text s.ip = some B ∧ templateUnit (bundleTemplate B) s.ri = some .l ∧
         decodeUnit .x (bundleSlot B 1) (bundleSlot B 2) = none) := by decide

theorem witness_FaultIsPrecise :
    let s := at_ [(0x1000, 0)] 0x1000 0 0
    s.mark = .running ∧ place (step s) = some (0x1000, 0, .faulted (.breakInstruction 0 0x1000 0)) := by decide

theorem witness_WrittenPredicatesNeverFault :
    State.reset.predicatesWritten ∧ State.reset.mark = .running ∧
      Host.Core.run core 0 State.reset = .next State.reset :=
  ⟨by intro j; revert j; decide, rfl, rfl⟩

theorem witness_DecodeEncodedBundle :
    (Bundle.three .bbb true (.nopB 63 0x1fffff) (.breakB 0 5) (.nopB 0 0)).wellFormed = true ∧
      (Bundle.long true (.nopM 0 0) (.nopX 63 0x3fffffffffffffff)).wellFormed = true := by decide

theorem witness_DecodedBundleIsEncoding :
    (∀ k, ∃ i, decodeSlot nops k = .instr i) ∧
      (∀ k, decodeSlot longBreak k = .slotTwoOfMLX ∨ ∃ i, decodeSlot longBreak k = .instr i) := by
  refine ⟨fun k => ?_, fun k => ?_⟩
  · match k with
    | 0 => exact ⟨.nopM 0 0, by decide⟩
    | 1 => exact ⟨.nopI 0 0, by decide⟩
    | 2 => exact ⟨.nopI 0 0, by decide⟩
  · match k with
    | 0 => exact .inr ⟨.nopM 0 0, by decide⟩
    | 1 => exact .inr ⟨.breakX 0 0x2aaaaaaaaab55555, by decide⟩
    | 2 => exact .inl (by decide)

/-- The L+X form, and a one-slot form whose immediate has bits on both sides of the gap (sections 2.6, 2.5). -/
theorem witness_ImmediatesAreAssembled :
    decodeSlot longBreak 1 = .instr (.breakX 0 0x2aaaaaaaaab55555) ∧
      decodeSlot (bundleOf 0 0x00008000000 0x01002af3782 0) 1 = .instr (.breakI 2 0x1abcde) := by decide

/-- A fetched bundle (section 2.2), at a bundle address. -/
theorem witness_BundleLayout :
    (0x1000#64).toNat % 16 = 0 ∧ fetchBundle (textOf [(0x1000, nops)]) 0x1000 = some nops := by decide

/-- A stop inside the bundle, 00 against 03 and 08 against 0A, and a stop at its end, 04 against 05; and two fetches. -/
theorem witness_StopsChangeNoResult :
    templateUnits 0x00 = templateUnits 0x03 ∧ templateUnits 0x08 = templateUnits 0x0A ∧
      templateUnits 0x04 = templateUnits 0x05 ∧ (templateUnits 0x00).isSome = true ∧
      (templateUnits 0x08).isSome = true ∧ (templateUnits 0x04).isSome = true ∧
      (let n : SlotBits := 0x00008000000
       fetchBundle (textOf [(0x1000, nops)]) 0x1000 = some (bundleOf 0x00 n n n) ∧
         fetchBundle (textOf [(0x1000, nops ||| 3)]) 0x1000 = some (bundleOf 0x03 n n n)) := by decide

/-- The word is run where the decoder has an instruction, and refused where it has none. -/
theorem witness_PlacedWordIsRun :
    decodeTableWord 48 0x00008000040 = some (.nopM 0 1) ∧ decodeTableWord 48 0x10000000000 = none ∧
      refusal (step (State.reset.withFetchWord 48 0x10000000000))
        = some (.unknownEncoding .m 0x10000000000) := by decide

/-- The first clause both ways, and a fetch with its last byte absent. -/
theorem witness_FetchIsLittleEndian :
    fetchBundle (textOf [(0x1000, nops)]) 0x1000 = some nops ∧ fetchBundle [] 0x1000 = none ∧
      (let s := { at_ [] 0x1000 0 0 with text := (textOf [(0x1000, nops)]).filter fun c => c.1 ≠ 0x100F }
       s.mark = .running ∧ ¬(s.ip = s.endIp ∧ s.ri = 0) ∧ s.ip.toNat % 16 = 0 ∧
         s.text.read (s.ip + BitVec.ofNat 64 15).toNat = none ∧ s.text.length = 15) := by decide

theorem witness_CanonicalMemoryIsItsBytes :
    Memory.wf (textOf [(0x1000, nops), (0, longNop)]) ∧ Memory.wf (textOf [(0, longNop), (0x1000, nops)]) ∧
      textOf [(0x1000, nops), (0, longNop)] = textOf [(0, longNop), (0x1000, nops)] :=
  ⟨textOf_wf _, textOf_wf _, by decide⟩

theorem witness_step_answers :
    place (step (at_ [(0x1000, nops)] 0x1000 0 0)) = some (0x1000, 1, .running) := by decide
theorem witness_TextIsImmutable : place (step (at_ [(0x1000, nops)] 0x1000 0 0)) = some (0x1000, 1, .running) := by
  decide
theorem witness_StepWritesNoRegister : place (step (at_ [(0x1000, 0)] 0x1000 0 0))
    = some (0x1000, 0, .faulted (.breakInstruction 0 0x1000 0)) := by decide

/-- PredicatesRotate: the clauses meet at 15 and 16, and end at 63. -/
theorem witness_PredicatesRotate :
    (15#6).toNat < 16 ∧ 16 ≤ (16#6).toNat ∧ 16 ≤ (63#6).toNat ∧ State.reset.rrbPr = 0 ∧
      (State.reset.writePR 63 true).readPR 63 = .val true ∧ (State.reset.writePR 63 true).readPR 62 = .val false := by
  decide

theorem witness_GeneralRegisterZero :
    place (State.reset.writeGR 1 5) = some (0, 0, .running) ∧ place (State.reset.writeGR 127 5) = some (0, 0, .running) := by
  decide
theorem witness_FloatingRegistersZeroAndOne :
    place (State.reset.writeFR 1 5) = some (0, 0, .faulted (.illegalOperation .writeFR0or1 0 0)) ∧
      place (State.reset.writeFR 2 5) = some (0, 0, .running) ∧
      place (State.reset.writeFR 127 5) = some (0, 0, .running) := by decide

/-- The last register of each file, and the first. -/
theorem witness_BranchAndApplicationRegisters :
    place (State.reset.writeBR 7 5) = some (0, 0, .running) ∧ place (State.reset.writeBR 0 5) = some (0, 0, .running) ∧
      place (State.reset.writeAR 127 5) = some (0, 0, .running) ∧
      place (State.reset.writeAR 0 5) = some (0, 0, .running) ∧
      place (State.reset.writeCR 81 5) = some (0, 0, .running) ∧
      place (State.reset.writeCR 0 5) = some (0, 0, .running) := by decide

/-- An unwritten register of each file at the ends of its range, and a register of each file that holds a value. -/
theorem witness_UnwrittenRegisterReadFaults :
    let s := bare State.reset
    s.readGR 1 = .unwritten ∧ s.readGR 127 = .unwritten ∧ s.readFR 2 = .unwritten ∧ s.readFR 127 = .unwritten ∧
      s.readBR 0 = .unwritten ∧ s.readBR 7 = .unwritten ∧ s.readAR 0 = .unwritten ∧ s.readAR 127 = .unwritten ∧
      s.readCR 0 = .unwritten ∧ s.readCR 81 = .unwritten ∧ s.readGR 0 = .val 0 ∧
      State.reset.readGR 127 = .val 0 ∧ State.reset.readFR 127 = .val 0 ∧ State.reset.readBR 7 = .val 0 ∧
      State.reset.readAR 127 = .val 0 ∧ State.reset.readCR 81 = .val 0 := by decide
theorem test_useCR_unwritten :
    place ((bare State.reset).useCR 81 fun _ => .next State.reset)
      = some (0, 0, .faulted (.unwrittenRegister (.cr 81) 0 0)) := by decide

/-- The invariant holds of the state after reset, so a state meets it. -/
theorem reset_inv : State.reset.Inv where
  ipAligned := by decide
  endAligned := by decide
  rrbLegal := by decide
  textWf := reset_text_wf
  notInsideLong := fun _ B h => by cases h
  faultRecord := fun f h => by cases h
  finalAtEnd := fun h => by cases h

/-- Where a placed word is stored. -/
theorem withFetchWord_text (s : State) (nbits w : Nat) :
    (s.withFetchWord nbits w).text = s.text.memWrite (s.ip.extractLsb' 4 60 ++ 0#4) 16 (tableBundle nbits w) := rfl

/-- A placed word keeps the canonical form. -/
theorem placed_wf (s : State) (nbits w : Nat) (h : s.text.wf) : (s.withFetchWord nbits w).text.wf := by
  rw [withFetchWord_text]
  exact Memory.wf_memWrite h (s.ip.extractLsb' 4 60 ++ 0#4) 16 (tableBundle nbits w)

theorem placed_inv : (State.reset.withFetchWord 48 0x00008000040).Inv where
  ipAligned := by decide
  endAligned := by decide
  rrbLegal := by decide
  textWf := placed_wf _ _ _ reset_text_wf
  notInsideLong := fun _ _ _ h => absurd h.1 (by decide)
  faultRecord := fun f h => nomatch (show Mark.running = .faulted f from h)
  finalAtEnd := fun h => nomatch (show Mark.running = .final from h)

theorem witness_EveryStepKeepsInvariant :
    (State.reset.withFetchWord 48 0x00008000040).Inv ∧
      place (step (State.reset.withFetchWord 48 0x00008000040)) = some (0, 1, .running) :=
  ⟨placed_inv, by decide⟩

theorem witness_BadLaunchIsNeverReached : State.reset.Inv ∧ State.reset.mark = .running := ⟨reset_inv, rfl⟩

/-- A launch that runs, and one refused for each reason. -/
theorem witness_BadLaunchesAreRefused :
    launchP3.start.mark = .running ∧
      ({ launchP3 with entryIp := 0x1008 } : Launch).start.mark ≠ .running ∧
      ({ launchP3 with endIp := 0x1028 } : Launch).start.mark ≠ .running ∧
      ({ launchP3 with rrbPr := 48 } : Launch).start.mark ≠ .running ∧
      ({ launchP3 with ri := 2 } : Launch).start.mark ≠ .running := by decide

theorem witness_GoodLaunchMeetsInvariant : launchP3.text.wf ∧ launchP3.start.mark = .running :=
  ⟨textOf_wf _, by decide⟩

/-- A launch whose run is final after one step: `entry_ip` is `end_ip` (R97). -/
theorem witness_FinalStateIsTheLaunchAtEnd :
    let l := { launchP3 with endIp := 0x3000 }
    l.text.wf ∧ l.start.mark = .running ∧ place (step l.start) = some (0x3000, 0, .final) :=
  ⟨textOf_wf _, by decide, by decide⟩

/-- Both clauses: a bundle of three `nop`s, and an MLX bundle. -/
theorem witness_NopBundleFallsThrough :
    (let s := at_ [(0x1000, nops)] 0x1000 0 0x1020
     let b := Bundle.three .mii false (.nopM 0 0) (.nopI 0 0) (.nopI 0 0)
     s.mark = .running ∧ s.ip.toNat % 16 = 0 ∧ s.ri = 0 ∧ s.ip ≠ s.endIp ∧
       fetchBundle s.text s.ip = some b.encode ∧ b.wellFormed = true ∧
       (∀ k, ((b.instrAt k).all fun i => i.isNop && s.readPred i.qp ≠ .unwritten) = true) ∧ b.instrAt 2 ≠ none) ∧
      (let s := at_ [(0x1000, longNop)] 0x1000 0 0x1020
       let b := Bundle.long false (.nopM 0 0) (.nopX 0 0)
       s.mark = .running ∧ s.ip.toNat % 16 = 0 ∧ s.ri = 0 ∧ s.ip ≠ s.endIp ∧
         fetchBundle s.text s.ip = some b.encode ∧ b.wellFormed = true ∧
         (∀ k, ((b.instrAt k).all fun i => i.isNop && s.readPred i.qp ≠ .unwritten) = true) ∧ b.instrAt 2 = none) := by
  decide

end Sys2Proof.Tests
end

section
/-!
PROOF. The predicate file (spec/10_state.md rule R17): what `readPR` answers after `writePR`, and where `predIndex` sends
each number; from these, O34.
-/

namespace Sys2Proof.Machine

/-- A write to PR0 is discarded (R17). -/
@[simp] theorem State.writePR_zero (s : State) (v : Bool) : s.writePR 0 v = s := rfl

/-- PR0 reads 1 (R17). -/
@[simp] theorem State.readPR_zero (s : State) : s.readPR 0 = .val true := rfl

/-- Any predicate register but PR0 reads what the file holds for it, one place down. -/
theorem State.readPR_of_ne_zero (s : State) {j : Fin 64} (h : j.val ≠ 0) :
    s.readPR j = s.regs.pr[j.val - 1]'(by omega) := dif_neg h

/-- A write to any predicate register but PR0 sets its place in the file. -/
theorem State.writePR_regs_pr (s : State) {j : Fin 64} (h : j.val ≠ 0) (v : Bool) :
    (s.writePR j v).regs.pr = s.regs.pr.set (j.val - 1) (.val v) (by omega) := by
  rw [State.writePR, dif_neg h]

/-- A predicate register is read back from a write to it, unless it is PR0, and a write changes no other (R17, R8). -/
theorem State.readPR_writePR (s : State) {j : Fin 64} (hj : j ≠ 0) (j' : Fin 64) (v : Bool) :
    (s.writePR j v).readPR j' = if j' = j then .val v else s.readPR j' := by
  have hj : j.val ≠ 0 := Fin.val_ne_of_ne hj
  by_cases hj' : j' = 0
  · subst hj'
    rw [if_neg (by omega), State.readPR_zero, State.readPR_zero]
  · have hj' : j'.val ≠ 0 := Fin.val_ne_of_ne hj'
    have same_place : j.val - 1 = j'.val - 1 ↔ j' = j := by omega
    simp only [State.readPR_of_ne_zero _ hj', State.writePR_regs_pr s hj, Vector.getElem_set, same_place]

/-- With rename base 0 every predicate number names its own register (R17). -/
theorem predIndex_base_zero (p : PredNum) : (predIndex p 0).val = p.toNat := by
  by_cases h : p.toNat < 16
  · exact predIndex_static h 0
  · rw [predIndex_rotating (by omega), show (0 : BitVec 6).toNat = 0 from rfl]
    omega

/-- A predicate number reads the register of its index. -/
theorem State.readPred_of_predIndex {s : State} {p : PredNum} {j : Fin 64} (h : (predIndex p s.rrbPr).val = j.val) :
    s.readPred p = s.readPR j := congrArg s.readPR (Fin.ext h)

/-- Settles O34: the index of each range of numbers, and the read-back of `writePR`. -/
theorem predicatesRotate : Obligations.PredicatesRotate := by
  intro s
  refine ⟨s.readPred_zero, s.writePR_zero, fun p h => ?static, fun p h => ?rotating, fun hbase p => ?base_zero,
    fun j j' v hj => s.readPR_writePR hj j' v⟩
  case static => exact State.readPred_of_predIndex (predIndex_static h _)
  case rotating => exact State.readPred_of_predIndex (predIndex_rotating h _)
  case base_zero => exact State.readPred_of_predIndex (by rw [hbase]; exact predIndex_base_zero p)

end Sys2Proof.Machine
end

section
/-!
PROOF. Immediates (spec/30_encoding.md rule R74): an instruction's slots hold its immediate, and a bundle that decodes
to it holds its slots; from these, O24.
-/

namespace Sys2Proof

/-! ### What the slots of an instruction hold -/

/-- The immediate's 21 bits in a slot, as a number: bit 36 is the highest, bits 25:6 are the rest (R73, R74). -/
theorem slotImm21_toNat (s : SlotBits) :
    (slotImm21 s).toNat = (s.getLsbD 36).toNat * 2 ^ 20 + s.toNat / 2 ^ 6 % 2 ^ 20 := by
  have high : (slotI s).toNat = (s.getLsbD 36).toNat := by
    rw [slotI, BitVec.extractLsb'_toNat, BitVec.getLsbD, Nat.toNat_testBit, Nat.shiftRight_eq_div_pow]
  have low : (slotImm20a s).toNat = s.toNat / 2 ^ 6 % 2 ^ 20 := by
    rw [slotImm20a, BitVec.extractLsb'_toNat, Nat.shiftRight_eq_div_pow]
  rw [slotImm21, BitVec.toNat_append, ← Nat.shiftLeft_add_eq_or_of_lt (slotImm20a s).isLt, Nat.shiftLeft_eq, high,
    low]

/-- A 62-bit immediate is its two parts, the higher of them `imm41` (R74). -/
theorem imm62_parts (v : BitVec 62) :
    v.toNat = (v.extractLsb' 21 41).toNat * 2 ^ 21 + (v.extractLsb' 0 21).toNat := by
  simp only [BitVec.extractLsb'_toNat, Nat.shiftRight_eq_div_pow]
  omega

/-- The immediate of an instruction is what its slots hold of it, the L slot above the other (R74). -/
theorem Instr.immediate_eq (i : Instr) :
    i.immediate = i.longBits.toNat * 2 ^ 21 + (slotImm21 i.slotBits).toNat := by
  cases i with
  | nopX | breakX => simp only [immediate, longBits, slotBits, slotImm21_slotOf]; exact imm62_parts _
  | _ => simp [immediate, longBits, slotBits, slotImm21_slotOf]

/-- Only an L+X instruction has an L slot. -/
theorem Instr.longBits_of_unit_ne {i : Instr} (h : i.unit ≠ .x) : i.longBits = 0 := by
  cases i with
  | nopX | breakX => exact absurd rfl h
  | _ => rfl

/-! ### Which slots of a bundle are the instruction's -/

theorem decodeAs_eq_instr {u : UnitType} {l s : SlotBits} {i : Instr} :
    decodeAs u l s = .instr i ↔ decodeUnit u l s = some i := by
  unfold decodeAs
  cases decodeUnit u l s <;> simp

/-- An instruction decoded at a slot index is encoded in that slot; an L+X instruction in Slots 1 and 2 (R70, R75). -/
theorem decodeSlot_slotBits {B : BundleBits} {k : SlotIx} {i : Instr} (h : decodeSlot B k = .instr i) :
    i.slotBits = bundleSlot B (if i.unit = .x then 2 else k) ∧
      i.longBits = if i.unit = .x then bundleSlot B 1 else 0 := by
  unfold decodeSlot at h
  split at h
  case h_1 => cases h
  case h_2 => cases h
  case h_3 =>
    obtain ⟨unit_x, slot, long⟩ := decodeUnit_some (decodeAs_eq_instr.mp h)
    rw [if_pos unit_x, if_pos unit_x]
    exact ⟨slot, long rfl⟩
  case h_4 not_x _ _ =>
    obtain ⟨unit_eq, slot, -⟩ := decodeUnit_some (decodeAs_eq_instr.mp h)
    have unit_ne : i.unit ≠ .x := fun hx => not_x (by rw [← unit_eq, hx])
    rw [if_neg unit_ne, if_neg unit_ne]
    exact ⟨slot, Instr.longBits_of_unit_ne unit_ne⟩

/-! ### What a `break` reports -/

namespace Machine

theorem info21_toNat (v : BitVec 21) : (info21 v).toNat = v.toNat :=
  BitVec.toNat_setWidth_of_le (by decide)

theorem info62_toNat (v : BitVec 62) : (info62 v).toNat = v.toNat :=
  BitVec.toNat_setWidth_of_le (by decide)

/-- Settles O24: the slots that the bundle holds are those of the instruction, and these hold its immediate. -/
theorem immediatesAreAssembled : Obligations.ImmediatesAreAssembled := by
  refine ⟨fun B k i h => ?_, info21_toNat, info62_toNat⟩
  obtain ⟨slot, long⟩ := decodeSlot_slotBits h
  have long_toNat : i.longBits.toNat * 2 ^ 21 = if i.unit = .x then (bundleSlot B 1).toNat * 2 ^ 21 else 0 := by
    rw [long]; split <;> rfl
  rw [i.immediate_eq, slotImm21_toNat, long_toNat, slot, Nat.add_assoc]

end Machine
end Sys2Proof
end

section
/-!
PROOF. The layout of a bundle (spec/30_encoding.md rule R61): its 128 bits are its four fields, and a fetched bundle's
bytes are those of memory, in order; from these, O25.
-/

namespace Sys2Proof

/-- The template and the slots are all the bits of a bundle, in this order from bit 0 (R61). -/
theorem bundle_toNat (B : BundleBits) :
    B.toNat = (bundleTemplate B).toNat + (bundleSlot B 0).toNat * 2 ^ 5 + (bundleSlot B 1).toNat * 2 ^ 46
      + (bundleSlot B 2).toNat * 2 ^ 87 := by
  have slot0 : bundleSlot B 0 = B.extractLsb' 5 41 := rfl
  have slot1 : bundleSlot B 1 = B.extractLsb' 46 41 := rfl
  have slot2 : bundleSlot B 2 = B.extractLsb' 87 41 := rfl
  rw [slot0, slot1, slot2, bundleTemplate]
  simp only [BitVec.extractLsb'_toNat, Nat.shiftRight_eq_div_pow]
  omega

/-- A bundle's template is the low 5 bits of its first byte (R61). -/
theorem bundleTemplate_eq_firstByte (B : BundleBits) : bundleTemplate B = (B.extractLsb' 0 8).extractLsb' 0 5 := by
  rw [bundleTemplate, BitVec.extractLsb'_extractLsb'_of_le (by decide)]

/-- The bytes of a number, in order, are its digits in base 256 (R8). -/
theorem bytesToNat_digit {bs : List Byte} {k : Nat} (h : k < bs.length) :
    bytesToNat bs / 256 ^ k % 256 = bs[k].toNat := by
  induction bs generalizing k with
  | nil => cases h
  | cons b bs ih =>
    have first : b.toNat < 256 := b.isLt
    cases k with
    | zero => simp only [bytesToNat, List.getElem_cons_zero]; omega
    | succ k =>
      have rest : bytesToNat (b :: bs) / 256 = bytesToNat bs := by rw [bytesToNat]; omega
      rw [Nat.pow_succ', ← Nat.div_div_eq_div_mul, rest, ih (Nat.lt_of_succ_lt_succ h), List.getElem_cons_succ]

/-- Byte `k` of the word that bytes make is the `k`-th of them. -/
theorem extractByte_bytesToNat {bs : List Byte} {n k : Nat} (hk : k < n) (h : bs.length = n) :
    (BitVec.ofNat (8 * n) (bytesToNat bs)).extractLsb' (8 * k) 8 = bs[k] := by
  apply BitVec.eq_of_getLsbD_eq
  intro j hj
  have digit : bs[k].getLsbD j = (bytesToNat bs).testBit (8 * k + j) := by
    rw [BitVec.getLsbD, ← bytesToNat_digit (h ▸ hk), show 256 = 2 ^ 8 from rfl, ← Nat.pow_mul,
      Nat.testBit_mod_two_pow, Nat.testBit_div_two_pow, decide_eq_true hj, Bool.true_and, Nat.add_comm]
  rw [digit, BitVec.getLsbD_extractLsb', BitVec.getLsbD_ofNat, decide_eq_true hj,
    decide_eq_true (show 8 * k + j < 8 * n by omega), Bool.true_and, Bool.true_and]

namespace Machine

/-- Bytes that are read are those of the addresses in order. -/
theorem Memory.readBytes_eq_some {m : Memory} {a : Word} {n : Nat} {bs : List Byte} (h : m.readBytes a n = some bs) :
    bs.length = n ∧ ∀ k < n, m.read (a + BitVec.ofNat 64 k).toNat = bs[k]? := by
  induction n generalizing a bs with
  | zero => cases h; exact ⟨rfl, nofun⟩
  | succ n ih =>
    unfold Memory.readBytes at h
    split at h
    case h_1 b rest first others =>
      cases h
      obtain ⟨len, reads⟩ := ih others
      refine ⟨congrArg (· + 1) len, fun k hk => ?_⟩
      cases k with
      | zero => rw [BitVec.add_zero, first]; rfl
      | succ k => rw [← succ_add_ofNat, reads k (by omega), List.getElem?_cons_succ]
    case h_2 => cases h

/-- `MemRead` reads the bytes from its address up, the least significant first (R8). -/
theorem Memory.read_of_memRead {m : Memory} {a : Word} {n : Nat} {v : BitVec (8 * n)} (h : m.memRead a n = some v)
    {k : Nat} (hk : k < n) : m.read (a + BitVec.ofNat 64 k).toNat = some (v.extractLsb' (8 * k) 8) := by
  obtain ⟨bs, read, rfl⟩ := Option.map_eq_some_iff.mp h
  obtain ⟨len, reads⟩ := Memory.readBytes_eq_some read
  rw [reads k hk, extractByte_bytesToNat hk len, List.getElem?_eq_getElem]

/-- The 16 addresses from a bundle address up do not wrap (R42). -/
theorem toNat_add_of_aligned {a : Word} (h : a.toNat % 16 = 0) {k : Nat} (hk : k < 16) :
    (a + BitVec.ofNat 64 k).toNat = a.toNat + k := by
  rw [BitVec.toNat_add, BitVec.toNat_ofNat]
  omega

/-- A bundle fetched at a bundle address takes the 16 bytes from there up (R41, R61). -/
theorem read_of_fetchBundle {m : Memory} {a : Word} {B : BundleBits} (ha : a.toNat % 16 = 0)
    (h : fetchBundle m a = some B) {k : Nat} (hk : k < 16) :
    m.read (a.toNat + k) = some (B.extractLsb' (8 * k) 8) := by
  rw [← toNat_add_of_aligned ha hk]
  exact Memory.read_of_memRead h hk

/-- Settles O25: the four fields are the bundle, and its bytes are the fetched ones. -/
theorem bundleLayout : Obligations.BundleLayout := by
  refine ⟨bundle_toNat, fun m a B ha h => ⟨fun k hk => read_of_fetchBundle ha h hk, ?_⟩, by decide⟩
  exact ⟨_, read_of_fetchBundle ha h (k := 0) (by decide), bundleTemplate_eq_firstByte B⟩

end Machine
end Sys2Proof
end

section
/-!
PROOF. Stops (spec/30_encoding.md rule R69): which codes have one after each slot, and the two codes of a template type;
from these, O27.
-/

namespace Sys2Proof

/-- The odd codes of the table's rows that are not blank (R65). -/
theorem odd_assigned_iff (t : Template) :
    (t.getLsbD 0 && (templateUnits t).isSome) = true ↔
      t.toNat ∈ [0x01, 0x03, 0x05, 0x09, 0x0B, 0x0D, 0x0F, 0x11, 0x13, 0x17, 0x19, 0x1D] := by
  revert t; decide

/-! Where `StopAfter` holds, slot by slot. -/

theorem stopAfter_two (t : Template) : stopAfter t 2 = (t.getLsbD 0 && (templateUnits t).isSome) := by
  simp [stopAfter]
theorem stopAfter_one (t : Template) : stopAfter t 1 = (t == 0x02 || t == 0x03) := by
  simp [stopAfter]
theorem stopAfter_zero (t : Template) : stopAfter t 0 = (t == 0x0A || t == 0x0B) := by
  simp [stopAfter]

/-- The second code of a pair is the odd one (R66). -/
theorem TemplateName.code_getLsbD_zero (n : TemplateName) (stop : Bool) : (n.code stop).getLsbD 0 = stop := by
  cases n <;> cases stop <;> decide

/-- A stop ends the bundle exactly where its template says so (R69). -/
theorem stopAfter_code_two (n : TemplateName) (stop : Bool) : stopAfter (n.code stop) 2 = stop := by
  rw [stopAfter_two, n.code_getLsbD_zero, templateUnits_code, Option.isSome_some, Bool.and_true]

/-- The stops inside a bundle are of its type: both codes of the pair have them (R69). -/
theorem stopAfter_code_inside (n : TemplateName) {k : SlotIx} (hk : k ≠ 2) (stop stop' : Bool) :
    stopAfter (n.code stop) k = stopAfter (n.code stop') k := by
  match k with
  | 0 => rw [stopAfter_zero, stopAfter_zero]; cases n <;> cases stop <;> cases stop' <;> rfl
  | 1 => rw [stopAfter_one, stopAfter_one]; cases n <;> cases stop <;> cases stop' <;> rfl
  | 2 => exact absurd rfl hk

/-- Settles O27: the codes with a stop slot by slot, and the two codes of each type. -/
theorem stopsAreWhereTheTemplateSays : Obligations.StopsAreWhereTheTemplateSays := by
  refine ⟨fun t k => ?codes, fun n => ⟨stopAfter_code_two n true, stopAfter_code_two n false, fun k hk =>
    stopAfter_code_inside n hk true false⟩⟩
  case codes =>
    match k with
    | 0 => simp [stopAfter_zero, ← BitVec.toNat_inj]
    | 1 => simp [stopAfter_one, ← BitVec.toNat_inj]
    | 2 => rw [stopAfter_two, odd_assigned_iff]; simp

end Sys2Proof
end

section
/-!
PROOF. The advance (spec/40_sequencing.md rule R94): an L+X instruction is known by its slot index and its template, so
where an instruction goes next follows from these two; from this, O3.
-/

namespace Sys2Proof

/-- No instruction is of unit L: the L slot is part of the X slot's instruction (R70). -/
theorem Instr.unit_ne_l (i : Instr) : i.unit ≠ .l := by
  cases i <;> nofun

/-- The MLX templates by their codes (R70). -/
theorem isMLX_iff (t : Template) : isMLX t = true ↔ t = 0x04 ∨ t = 0x05 := by
  simp [isMLX]

/-- The L+X instructions are those decoded at index 1 of an MLX bundle (R75, R93). -/
theorem unit_x_iff_of_decodeSlot {B : BundleBits} {k : SlotIx} {i : Instr} (h : decodeSlot B k = .instr i) :
    i.unit = .x ↔ k = 1 ∧ (bundleTemplate B = 0x04 ∨ bundleTemplate B = 0x05) := by
  rw [← isMLX_iff]
  rcases decodeSlot_instr h with ⟨unit_x, at_one⟩ | ⟨unit_ne, template_unit⟩
  · exact iff_of_true unit_x at_one
  · refine iff_of_false unit_ne fun at_one => i.unit_ne_l ?_
    have slot_l := ((templateUnit_long _).1 k).mpr at_one
    exact Option.some.inj (template_unit.symm.trans slot_l)

namespace Machine

/-- Where a decoded instruction's advance leads, by slot index and template (R94). -/
theorem State.after_of_decodeSlot {s : State} {B : BundleBits} {i : Instr} (h : decodeSlot B s.ri = .instr i) :
    s.after i = if s.ri = 2 ∨ (s.ri = 1 ∧ (bundleTemplate B = 0x04 ∨ bundleTemplate B = 0x05))
      then s.nextBundle else s.goto s.ip (s.ri + 1) := by
  simp only [← unit_x_iff_of_decodeSlot h, State.after, State.nextSlot]
  by_cases unit_x : i.unit = .x
  · rw [if_pos unit_x, if_pos (.inr unit_x)]
  · simp only [unit_x, or_false, if_false]

/-- Settles O3: a step that leaves the state running has run the instruction decoded from the bundle. -/
theorem advanceAfterInstruction : Obligations.AdvanceAfterInstruction := by
  intro s t B running fetched stepped still_running
  rcases step_cases stepped with
    ⟨final, -⟩ | ⟨-, -, -, rfl⟩ | ⟨-, f, rfl, -⟩ | ⟨-, -, B', i, fetched', decoded, rfl⟩
  · rw [running] at final; cases final
  · cases still_running
  · cases still_running
  · obtain rfl : B = B' := Option.some.inj (fetched.symm.trans fetched')
    exact State.after_of_decodeSlot decoded

end Machine
end Sys2Proof
end

section
/-!
PROOF. Decoding a bundle (spec/30_encoding.md rules R67, R70, R75): what `decodeSlot` answers, by the unit that the
template gives the slot index; from these, O21 and O22.
-/

namespace Sys2Proof

/-! ### Decoding by the unit of the slot index -/

/-- `templateUnit` by slot index: the letter of the name (R66, R67). -/
theorem templateUnit_code (n : TemplateName) (stop : Bool) (k : SlotIx) :
    templateUnit (n.code stop) k =
      some (if k = 0 then n.units.1 else if k = 1 then n.units.2.1 else n.units.2.2) := by
  rw [templateUnit, templateUnits_code, Option.map_some]

theorem isMLX_code (n : TemplateName) (stop : Bool) : isMLX (n.code stop) = decide (n = .mlx) := by
  cases n <;> cases stop <;> decide

/-- A blank template row is reserved at every slot index (R68). -/
theorem decodeSlot_reserved {B : BundleBits} (h : templateUnits (bundleTemplate B) = none) (k : SlotIx) :
    decodeSlot B k = .reservedTemplate (bundleTemplate B) := by
  rw [decodeSlot, templateUnit, h, Option.map_none]

/-- Slot index 2 of an MLX bundle is no instruction (R93). -/
theorem decodeSlot_two_of_isMLX {B : BundleBits} (h : isMLX (bundleTemplate B) = true) :
    decodeSlot B 2 = .slotTwoOfMLX := by
  rw [decodeSlot, ((templateUnit_long _).2 2).mpr ⟨rfl, h⟩]

/-- Slot index 1 of an MLX bundle is the instruction of both its L and its X slot (R70, R75). -/
theorem decodeSlot_one_of_isMLX {B : BundleBits} (h : isMLX (bundleTemplate B) = true) :
    decodeSlot B 1 = decodeAs .x (bundleSlot B 1) (bundleSlot B 2) := by
  rw [decodeSlot, ((templateUnit_long _).1 1).mpr ⟨rfl, h⟩]

/-- A slot of any other unit is decoded by itself (R75). -/
theorem decodeSlot_of_unit {B : BundleBits} {k : SlotIx} {u : UnitType}
    (h : templateUnit (bundleTemplate B) k = some u) (not_l : u ≠ .l) (not_x : u ≠ .x) :
    decodeSlot B k = decodeAs u 0 (bundleSlot B k) := by
  rw [decodeSlot, h]
  cases u with
  | l => exact absurd rfl not_l
  | x => exact absurd rfl not_x
  | _ => rfl

/-- An index that decodes to `slotTwoOfMLX` is index 2 of an MLX bundle (R93). -/
theorem decodeSlot_eq_slotTwo {B : BundleBits} {k : SlotIx} (h : decodeSlot B k = .slotTwoOfMLX) :
    k = 2 ∧ isMLX (bundleTemplate B) = true := by
  have as (u : UnitType) (l s : SlotBits) : decodeAs u l s ≠ .slotTwoOfMLX := by
    rw [decodeAs]; split <;> nofun
  unfold decodeSlot at h
  split at h
  case h_1 => cases h
  case h_2 unit_x => exact ((templateUnit_long _).2 k).mp unit_x
  case h_3 => exact absurd h (as _ _ _)
  case h_4 => exact absurd h (as _ _ _)

/-- An index that decodes at all has an assigned template (R68). -/
theorem templateUnits_isSome_of_decodeSlot {B : BundleBits} {k : SlotIx}
    (h : decodeSlot B k ≠ .reservedTemplate (bundleTemplate B)) : (templateUnits (bundleTemplate B)).isSome := by
  rw [Option.isSome_iff_ne_none]
  exact fun blank => h (decodeSlot_reserved blank k)

/-! ### Decoding the slots of an instruction -/

/-- An instruction's slot decodes to it where the template gives the index its unit. -/
theorem decodeSlot_of_slotBits {B : BundleBits} {k : SlotIx} {i : Instr} (not_x : i.unit ≠ .x)
    (unit : templateUnit (bundleTemplate B) k = some i.unit) (slot : bundleSlot B k = i.slotBits) :
    decodeSlot B k = .instr i := by
  rw [decodeSlot_of_unit unit i.unit_ne_l not_x, decodeAs_eq_instr, decodeUnit_longBits not_x 0 i.longBits, slot]
  exact decodeUnit_slotBits i

/-- An L+X instruction's two slots decode to it at index 1 of an MLX bundle. -/
theorem decodeSlot_of_longBits {B : BundleBits} {i : Instr} (unit_x : i.unit = .x)
    (mlx : isMLX (bundleTemplate B) = true) (long : bundleSlot B 1 = i.longBits)
    (slot : bundleSlot B 2 = i.slotBits) : decodeSlot B 1 = .instr i := by
  rw [decodeSlot_one_of_isMLX mlx, decodeAs_eq_instr, long, slot, ← unit_x]
  exact decodeUnit_slotBits i

/-! ### Written bundles -/

theorem Bundle.wellFormed_three {n : TemplateName} {stop : Bool} {i0 i1 i2 : Instr} :
    (Bundle.three n stop i0 i1 i2).wellFormed = true ↔
      n ≠ .mlx ∧ i0.unit = n.units.1 ∧ i1.unit = n.units.2.1 ∧ i2.unit = n.units.2.2 := by
  simp [Bundle.wellFormed, and_assoc]

theorem Bundle.wellFormed_long {stop : Bool} {i0 lx : Instr} :
    (Bundle.long stop i0 lx).wellFormed = true ↔ i0.unit = .m ∧ lx.unit = .x := by
  simp [Bundle.wellFormed]

/-- In a template type other than MLX no slot is an X slot (R66). -/
theorem templateUnit_code_ne_x {n : TemplateName} (h : n ≠ .mlx) (stop : Bool) (k : SlotIx) :
    templateUnit (n.code stop) k ≠ some .x := by
  rw [Ne, (templateUnit_long _).2, isMLX_code, decide_eq_true_eq]
  exact fun mlx => h mlx.2

section
variable {n : TemplateName} {stop : Bool} {i0 i1 i2 : Instr} (h : (Bundle.three n stop i0 i1 i2).wellFormed = true)
  (k : SlotIx)
include h

/-- The template gives each slot of a well-formed bundle the unit of its instruction (R71). -/
theorem templateUnit_three :
    templateUnit (n.code stop) k = some (if k = 0 then i0 else if k = 1 then i1 else i2).unit := by
  obtain ⟨-, unit0, unit1, unit2⟩ := Bundle.wellFormed_three.mp h
  rw [templateUnit_code, ← unit0, ← unit1, ← unit2]
  split_ifs <;> rfl

/-- No L+X instruction is one of three. -/
theorem unit_ne_x_of_three : (if k = 0 then i0 else if k = 1 then i1 else i2).unit ≠ .x := fun unit_x =>
  templateUnit_code_ne_x (Bundle.wellFormed_three.mp h).1 stop k (by rw [templateUnit_three h, unit_x])

/-- The three instructions of a well-formed bundle decode each in its slot. -/
theorem decodeSlot_encode_three :
    decodeSlot (Bundle.three n stop i0 i1 i2).encode k = .instr (if k = 0 then i0 else if k = 1 then i1 else i2) := by
  refine decodeSlot_of_slotBits (unit_ne_x_of_three h k) ?_ ?_
  · rw [Bundle.encode, bundleTemplate_bundleOf, templateUnit_three h]
  · rw [Bundle.encode, bundleSlot_bundleOf]
    split_ifs <;> rfl

end

/-- A well-formed MLX bundle decodes to its two instructions, and its index 2 to neither (R70, R93). -/
theorem decodeSlot_encode_long {stop : Bool} {i0 lx : Instr} (h : (Bundle.long stop i0 lx).wellFormed = true) :
    decodeSlot (Bundle.long stop i0 lx).encode 0 = .instr i0 ∧
      decodeSlot (Bundle.long stop i0 lx).encode 1 = .instr lx ∧
      decodeSlot (Bundle.long stop i0 lx).encode 2 = .slotTwoOfMLX := by
  obtain ⟨unit_m, unit_x⟩ := Bundle.wellFormed_long.mp h
  have template : bundleTemplate (Bundle.long stop i0 lx).encode = TemplateName.mlx.code stop :=
    bundleTemplate_bundleOf _ _ _ _
  have slot (k : SlotIx) : bundleSlot (Bundle.long stop i0 lx).encode k =
      if k = 0 then i0.slotBits else if k = 1 then lx.longBits else lx.slotBits := bundleSlot_bundleOf _ _ _ _ k
  have mlx : isMLX (bundleTemplate (Bundle.long stop i0 lx).encode) = true := by rw [template, isMLX_code]; rfl
  refine ⟨?_, decodeSlot_of_longBits unit_x mlx (slot 1) (slot 2), decodeSlot_two_of_isMLX mlx⟩
  refine decodeSlot_of_slotBits (by rw [unit_m]; nofun) ?_ (slot 0)
  rw [template, templateUnit_code, unit_m]
  rfl

/-- Settles O21: each shape of a written bundle, slot by slot. -/
theorem decodeEncodedBundle : Obligations.DecodeEncodedBundle := by
  intro b k h
  cases b with
  | three n stop i0 i1 i2 => exact decodeSlot_encode_three h k
  | long stop i0 lx =>
    obtain ⟨at_zero, at_one, at_two⟩ := decodeSlot_encode_long h
    match k with
    | 0 => exact at_zero
    | 1 => exact at_one
    | 2 => exact at_two

/-! ### From the bits back to a written bundle -/

/-- The twelve template types, in the source's order (R66). -/
def TemplateName.all : List TemplateName :=
  [.mii, .mi_i, .mlx, .mmi, .m_mi, .mfi, .mmf, .mib, .mbb, .bbb, .mmb, .mfb]

theorem TemplateName.mem_all (n : TemplateName) : n ∈ TemplateName.all := by cases n <;> decide

/-- Every assigned code is that of a template type, with its stop bit (R65, R66). -/
theorem exists_code_of_templateUnits {t : Template} (h : (templateUnits t).isSome) :
    ∃ (n : TemplateName) (stop : Bool), n.code stop = t := by
  have table : ∀ t : Template, (templateUnits t).isSome → ∃ n ∈ TemplateName.all, ∃ stop, n.code stop = t := by decide
  obtain ⟨n, -, stop, code⟩ := table t h
  exact ⟨n, stop, code⟩

/-- A bundle is its template and its slots (R61). -/
theorem bundleOf_fields (B : BundleBits) :
    bundleOf (bundleTemplate B) (bundleSlot B 0) (bundleSlot B 1) (bundleSlot B 2) = B := by
  apply BitVec.eq_of_toNat_eq
  rw [bundle_toNat, bundle_toNat B, bundleTemplate_bundleOf]
  simp only [bundleSlot_bundleOf]
  rfl

/-- An instruction decoded elsewhere than at index 1 of an MLX bundle has the unit that the template gives the index. -/
theorem unit_of_decodeSlot {B : BundleBits} {k : SlotIx} {i : Instr} {n : TemplateName} {stop : Bool}
    (code : n.code stop = bundleTemplate B) (h : decodeSlot B k = .instr i) (not_long : ¬(k = 1 ∧ n = .mlx)) :
    i.unit ≠ .x ∧ i.unit = if k = 0 then n.units.1 else if k = 1 then n.units.2.1 else n.units.2.2 := by
  rcases decodeSlot_instr h with ⟨-, at_one, mlx⟩ | ⟨not_x, unit⟩
  · rw [← code, isMLX_code, decide_eq_true_eq] at mlx
    exact absurd ⟨at_one, mlx⟩ not_long
  · rw [← code, templateUnit_code] at unit
    exact ⟨not_x, (Option.some.inj unit).symm⟩

/-- The slot of an instruction that is not L+X is its encoding. -/
theorem slotBits_of_decodeSlot {B : BundleBits} {k : SlotIx} {i : Instr} (h : decodeSlot B k = .instr i)
    (not_x : i.unit ≠ .x) : i.slotBits = bundleSlot B k := by
  rw [(decodeSlot_slotBits h).1, if_neg not_x]

/-- Settles O22: the instructions decoded at the indexes are those of the written bundle, of the template's type. -/
theorem decodedBundleIsEncoding : Obligations.DecodedBundleIsEncoding := by
  intro B decodes
  have assigned : (templateUnits (bundleTemplate B)).isSome := templateUnits_isSome_of_decodeSlot (k := 0) <| by
    rcases decodes 0 with h | ⟨i, h⟩ <;> rw [h] <;> nofun
  obtain ⟨n, stop, code⟩ := exists_code_of_templateUnits assigned
  have instr_of (k : SlotIx) (h : ¬(k = 2 ∧ n = .mlx)) : ∃ i, decodeSlot B k = .instr i :=
    (decodes k).resolve_left fun two => h <| by
      have := decodeSlot_eq_slotTwo two
      rwa [← code, isMLX_code, decide_eq_true_eq] at this
  obtain ⟨i0, at_zero⟩ := instr_of 0 (by simp)
  obtain ⟨i1, at_one⟩ := instr_of 1 (by simp)
  obtain ⟨not_x0, unit0⟩ := unit_of_decodeSlot code at_zero (by simp)
  have slot0 := slotBits_of_decodeSlot at_zero not_x0
  by_cases mlx : n = .mlx
  · subst mlx
    have unit_x : i1.unit = .x := by
      rw [unit_x_iff_of_decodeSlot at_one, ← isMLX_iff, ← code, isMLX_code]
      simp
    obtain ⟨slot2, slot1⟩ := decodeSlot_slotBits at_one
    rw [if_pos unit_x] at slot1 slot2
    refine ⟨.long stop i0 i1, Bundle.wellFormed_long.mpr ⟨unit0, unit_x⟩, ?_⟩
    rw [Bundle.encode, code, slot0, slot1, slot2, bundleOf_fields]
  · obtain ⟨i2, at_two⟩ := instr_of 2 (by simp [mlx])
    obtain ⟨not_x1, unit1⟩ := unit_of_decodeSlot code at_one (by simp [mlx])
    obtain ⟨not_x2, unit2⟩ := unit_of_decodeSlot code at_two (by simp)
    refine ⟨.three n stop i0 i1 i2, Bundle.wellFormed_three.mpr ⟨mlx, unit0, unit1, unit2⟩, ?_⟩
    rw [Bundle.encode, code, slot0, slotBits_of_decodeSlot at_one not_x1, slotBits_of_decodeSlot at_two not_x2,
      bundleOf_fields]

end Sys2Proof
end

section
/-!
PROOF. The fields of a slot and the template table (spec/30_encoding.md rules R65, R66, R69, R73, R75): which fields the
rows of the opcode table fix, and which codes the template types have; from these, O23, O26 and O29.
-/

namespace Sys2Proof

/-! ### The fixed fields of a slot -/

/-- A slot is its seven fields, from bit 40 down (R73). -/
theorem slot_eq_fields (s : SlotBits) :
    slotOpcode s ++ slotI s ++ slotZ3 s ++ slotX6 s ++ slotY s ++ slotImm20a s ++ slotQp s = s := by
  simp only [slotOpcode, slotI, slotZ3, slotX6, slotY, slotImm20a, slotQp]
  apply BitVec.eq_of_getLsbD_eq
  intro i hi
  simp only [BitVec.getLsbD_append, BitVec.getLsbD_extractLsb']
  interval_cases i <;> simp

/-- The fixed fields of a slot that is made of its fields. -/
theorem slotOf_fixed_fields (o : BitVec 4) (x : BitVec 6) (v : BitVec 21) (q : PredNum) :
    slotZ3 (slotOf o x v q) = 0 ∧ slotY (slotOf o x v q) = 0 ∧ slotOpcode (slotOf o x v q) = o ∧
      slotX6 (slotOf o x v q) = x := by
  refine ⟨?_, ?_, ?_, ?_⟩ <;> apply BitVec.eq_of_getLsbD_eq <;> intro i hi <;>
    simp only [slotZ3, slotY, slotOpcode, slotX6, slotOf, BitVec.getLsbD_extractLsb', BitVec.getLsbD_append] <;>
    interval_cases i <;> simp

/-- A slot whose `z3` and `y` are 0 is made of its other fields. -/
theorem slotOf_of_zero_fields {s : SlotBits} (z3 : slotZ3 s = 0) (y : slotY s = 0) :
    slotOf (slotOpcode s) (slotX6 s) (slotImm21 s) (slotQp s) = s := by
  have top : (slotImm21 s).extractLsb' 20 1 = slotI s := by
    rw [slotImm21, BitVec.extractLsb'_append_eq_of_le (by decide)]
    exact BitVec.extractLsb'_eq_self
  have low : (slotImm21 s).extractLsb' 0 20 = slotImm20a s := by
    rw [slotImm21, BitVec.extractLsb'_append_eq_of_add_le (by decide)]
    exact BitVec.extractLsb'_eq_self
  have fields := slot_eq_fields s
  rw [z3, y] at fields
  rw [slotOf, top, low]
  exact fields

/-- A slot matches a row exactly where `z3` and `y` are 0 and its opcode and extension are the row's (R75). -/
theorem masked_eq_iff (s : SlotBits) {o : BitVec 4} {x : BitVec 6} {pattern : SlotBits}
    (row : slotOf o x 0 0 = pattern) :
    s &&& slotMask = pattern ↔ slotZ3 s = 0 ∧ slotY s = 0 ∧ slotOpcode s = o ∧ slotX6 s = x := by
  subst row
  constructor
  · intro masked
    rw [← slotOf_fields masked]
    exact slotOf_fixed_fields ..
  · rintro ⟨z3, y, opcode, x6⟩
    rw [← slotOf_of_zero_fields z3 y, slotOf_masked, opcode, x6]

/-! The rows' patterns by their fields (R75): `break`, `nop`, and `nop` in a B slot. -/

theorem matches_break_iff (s : SlotBits) :
    s &&& slotMask = 0 ↔ slotZ3 s = 0 ∧ slotY s = 0 ∧ slotOpcode s = 0 ∧ slotX6 s = 0 :=
  masked_eq_iff s pattern_break
theorem matches_nop_iff (s : SlotBits) :
    s &&& slotMask = 0x00008000000 ↔ slotZ3 s = 0 ∧ slotY s = 0 ∧ slotOpcode s = 0 ∧ slotX6 s = 1 :=
  masked_eq_iff s pattern_nop
theorem matches_nopB_iff (s : SlotBits) :
    s &&& slotMask = 0x04000000000 ↔ slotZ3 s = 0 ∧ slotY s = 0 ∧ slotOpcode s = 2 ∧ slotX6 s = 0 :=
  masked_eq_iff s pattern_nopB

/-- Settles O23: unit by unit, the two rows by their fixed fields. -/
theorem slotsThatDecode : Obligations.SlotsThatDecode := by
  intro u l s
  have two_rows (p q : Prop) [Decidable p] [Decidable q] (i j : Instr) :
      (if p then some i else if q then some j else none).isSome ↔ p ∨ q := by
    split_ifs <;> simp [*]
  rw [decodeUnit_eq]
  cases u with
  | l => simp
  | b =>
    simp only [two_rows, matches_nopB_iff, matches_break_iff]
    simp
    tauto
  | m | i | f | x =>
    simp only [two_rows, matches_nop_iff, matches_break_iff]
    simp
    tauto

/-- Settles O29: each word by its fixed bits. -/
theorem writtenOutWordsDecode : Obligations.WrittenOutWordsDecode := by
  unfold Obligations.WrittenOutWordsDecode
  simp only [decodeUnit_eq]
  decide

/-! ### The codes of the template types -/

/-- No two template types with a stop bit have one code (R66): each code is in one pair, and its odd bit is the stop. -/
theorem TemplateName.code_injective {n n' : TemplateName} {stop stop' : Bool} (h : n.code stop = n'.code stop') :
    n = n' ∧ stop = stop' := by
  have stops : stop = stop' := by rw [← n.code_getLsbD_zero stop, h, n'.code_getLsbD_zero]
  subst stops
  have distinct : (TemplateName.all.map fun n => n.code stop).Nodup := by cases stop <;> decide
  exact ⟨List.inj_on_of_nodup_map distinct n.mem_all n'.mem_all h, rfl⟩

theorem templateUnits_eq_none_iff (t : Template) :
    templateUnits t = none ↔ t.toNat ∈ [0x06, 0x07, 0x14, 0x15, 0x1A, 0x1B, 0x1E, 0x1F] := by
  revert t; decide

/-- A stop inside a bundle is where its name has the underscore (R66, R69). -/
theorem stopAfter_code_inside_iff (n : TemplateName) (stop : Bool) {k : SlotIx} (hk : k ≠ 2) :
    stopAfter (n.code stop) k = true ↔ (n = .mi_i ∧ k = 1) ∨ (n = .m_mi ∧ k = 0) := by
  rw [stopAfter_code_inside n hk stop false]
  match k with
  | 0 => rw [stopAfter_zero]; cases n <;> decide
  | 1 => rw [stopAfter_one]; cases n <;> decide
  | 2 => exact absurd rfl hk

/-- Settles O26: the names' codes, the table of codes, and the two put together. -/
theorem templateTableMatchesNames : Obligations.TemplateTableMatchesNames := by
  refine ⟨by decide, fun n => ?odd_code, templateUnits_code, fun t => exists_code_of_templateUnits,
    fun n n' stop stop' => TemplateName.code_injective, templateUnits_eq_none_iff, fun n stop k hk =>
    stopAfter_code_inside_iff n stop hk⟩
  case odd_code => cases n <;> decide

end Sys2Proof
end

section
/-!
PROOF. The instructions (spec/41_nop_break.md rules R100 to R110): what `exec` answers by what the predicate holds, what
it leaves alone, and that it commutes with a change of what it does not read; from these, O7 to O16.
-/

namespace Sys2Proof

/-- A `break` report is 0 in a B slot, and else the immediate zero-extended (R106 to R110). -/
theorem Machine.reported_eq (i : Instr) :
    Machine.reported i =
      if i.isNop then none else some (if i.unit = .b then 0 else BitVec.ofNat 64 i.immediate) := by
  cases i with
  | breakM qp v | breakI qp v | breakF qp v | breakX qp v => exact congrArg some (BitVec.ofNat_toNat 64 v).symm
  | _ => rfl

namespace Machine

/-! ### Where an instruction's advance leads -/

/-- The advance, by the instruction's unit and the slot index (R94). -/
theorem State.after_eq (s : State) (i : Instr) :
    s.after i = if i.unit = .x ∨ s.ri = 2 then s.nextBundle else s.goto s.ip (s.ri + 1) := by
  rw [State.after, State.nextSlot]
  by_cases unit_x : i.unit = .x
  · rw [if_pos unit_x, if_pos (.inl unit_x)]
  · simp only [unit_x, false_or, if_false]

/-- The advance after an instruction of one slot, field by field. -/
theorem State.after_of_unit_ne {i : Instr} (not_x : i.unit ≠ .x) (s : State) :
    s.after i =
      { s with ip := if s.ri = 2 then s.ip + 16 else s.ip, ri := if s.ri = 2 then 0 else s.ri + 1 } := by
  rw [State.after, if_neg not_x, State.nextSlot]
  split_ifs <;> rfl

/-! ### What an instruction answers, by its predicate -/

/-- A `nop` only advances, whatever its predicate holds (R101 to R105). -/
theorem exec_nop {s : State} {i : Instr} {v : Bool} (nop : i.isNop = true) (h : s.readPred i.qp = .val v) :
    exec i s = .next (s.after i) := by
  have not_break : executed i s = .next (s.after i) := by rw [executed, reported_eq, if_pos nop]
  rw [exec_eq, State.predicated_val h, not_break, ite_self]

/-- On predicate 0 an instruction is nullified (R100). -/
theorem exec_nullified {s : State} {i : Instr} (h : s.readPred i.qp = .val false) :
    exec i s = .next (s.after i) := by
  rw [exec_eq, State.predicated_val h]
  rfl

/-- A `break` on predicate 1 takes its fault (R106 to R110). -/
theorem exec_break {s : State} {i : Instr} (not_nop : i.isNop = false) (h : s.readPred i.qp = .val true) :
    exec i s = .next (s.marked (.faulted
      (.breakInstruction (if i.unit = .b then 0 else BitVec.ofNat 64 i.immediate) s.ip s.ri))) := by
  rw [exec_eq, State.predicated_val h, if_pos rfl, executed, reported_eq, not_nop]
  rfl

/-- An instruction under a predicate that holds no value takes that fault (R30, R100). -/
theorem exec_unwritten {s : State} {i : Instr} (h : s.readPred i.qp = .unwritten) :
    exec i s = .next (s.marked (.faulted (.unwrittenRegister (.pr (predIndex i.qp s.rrbPr)) s.ip s.ri))) := by
  rw [exec_eq, State.predicated_unwritten h]

/-- Settles O7: each of the four is a `nop` of one slot. -/
theorem nopOfOneSlotOnlyAdvances : Obligations.NopOfOneSlotOnlyAdvances := by
  intro s qp imm v h i hi
  have one_slot : i.isNop = true ∧ i.unit ≠ .x ∧ i.qp = qp := by
    simp only [List.mem_cons, List.not_mem_nil, or_false] at hi
    rcases hi with rfl | rfl | rfl | rfl <;> exact ⟨rfl, nofun, rfl⟩
  obtain ⟨nop, not_x, rfl⟩ := one_slot
  rw [exec_nop nop h, State.after_of_unit_ne not_x]

/-- Settles O8. -/
theorem nopXGoesToNextBundle : Obligations.NopXGoesToNextBundle :=
  fun _ qp imm _ h => exec_nop (i := .nopX qp imm) rfl h

/-- Settles O9: each of the three is a `break` in a slot that is no B slot. -/
theorem breakMIFReportsItsImmediate : Obligations.BreakMIFReportsItsImmediate := by
  intro s qp imm h i hi
  simp only [List.mem_cons, List.not_mem_nil, or_false] at hi
  rcases hi with rfl | rfl | rfl <;> exact exec_break rfl h

/-- Settles O10. -/
theorem breakBReportsZero : Obligations.BreakBReportsZero :=
  fun _ qp imm h => exec_break (i := .breakB qp imm) rfl h

/-- Settles O11: the report is a 62-bit number. -/
theorem breakXReportsItsImmediate : Obligations.BreakXReportsItsImmediate := by
  intro s qp imm h
  refine ⟨info62 imm, info62_toNat imm, ?_, ?_, ?_⟩
  · rw [info62, BitVec.getLsbD_setWidth, BitVec.getLsbD_of_ge _ _ (by decide), Bool.and_false]
  · rw [info62, BitVec.getLsbD_setWidth, BitVec.getLsbD_of_ge _ _ (by decide), Bool.and_false]
  · rw [exec_break (i := .breakX qp imm) rfl h, info62, ← BitVec.ofNat_toNat]
    rfl

/-- Settles O12. -/
theorem nullifiedBreakOnlyAdvances : Obligations.NullifiedBreakOnlyAdvances := by
  intro s i _ h
  rw [exec_nullified h, State.after_eq]
  rfl

/-- Settles O13: predicate 0 always holds a value. -/
theorem unwrittenPredicateFaults : Obligations.UnwrittenPredicateFaults := by
  intro s i h
  refine ⟨fun zero => ?_, exec_unwritten h⟩
  rw [zero, State.readPred_zero] at h
  cases h

/-! ### What an instruction leaves alone -/

section
variable {s t : State} (same : t.regs = s.regs)
include same

/-! A register reads what the register part holds for it. -/

theorem State.readGR_congr (n : Fin 128) : t.readGR n = s.readGR n := by simp only [State.readGR, same]
theorem State.readFR_congr (n : Fin 128) : t.readFR n = s.readFR n := by simp only [State.readFR, same]
theorem State.readPR_congr (n : Fin 64) : t.readPR n = s.readPR n := by simp only [State.readPR, same]
theorem State.readBR_congr (n : Fin 8) : t.readBR n = s.readBR n := by simp only [State.readBR, same]
theorem State.readAR_congr (n : Fin 128) : t.readAR n = s.readAR n := by simp only [State.readAR, same]
theorem State.readCR_congr (n : Fin 82) : t.readCR n = s.readCR n := by simp only [State.readCR, same]

end

/-- The parts of the state that no instruction and no step changes: the registers, the rename base and the launch's
parameters (R26, R40). -/
def State.SameFrame (s t : State) : Prop :=
  t.regs = s.regs ∧ t.rrbPr = s.rrbPr ∧ t.text = s.text ∧ t.endIp = s.endIp

theorem State.sameFrame_marked (s : State) (k : Mark) : s.SameFrame (s.marked k) := ⟨rfl, rfl, rfl, rfl⟩

theorem State.sameFrame_after (s : State) (i : Instr) : s.SameFrame (s.after i) := by
  refine ⟨?_, ?_, ?_, ?_⟩ <;> simp

/-- The frame register by register and byte by byte, beside what else is known. -/
theorem State.SameFrame.observed {s t : State} (h : s.SameFrame t) {rest : Prop} (hrest : rest) :
    (∀ n, t.readGR n = s.readGR n) ∧ (∀ n, t.readFR n = s.readFR n) ∧ (∀ n, t.readPR n = s.readPR n) ∧
      (∀ n, t.readBR n = s.readBR n) ∧ (∀ n, t.readAR n = s.readAR n) ∧ (∀ n, t.readCR n = s.readCR n) ∧
      t.regs = s.regs ∧ t.rrbPr = s.rrbPr ∧ (∀ a, t.text.read a = s.text.read a) ∧ t.text = s.text ∧
      t.endIp = s.endIp ∧ rest := by
  obtain ⟨regs, rrbPr, text, endIp⟩ := h
  exact ⟨State.readGR_congr regs, State.readFR_congr regs, State.readPR_congr regs, State.readBR_congr regs,
    State.readAR_congr regs, State.readCR_congr regs, regs, rrbPr, fun a => by rw [text], text, endIp, hrest⟩

/-- What an instruction leaves alone, and where it changes the mark it does not advance. -/
theorem exec_frame {s t : State} {i : Instr} (h : exec i s = .next t) :
    s.SameFrame t ∧
      (t.mark = s.mark ∨
        ((s.readPred i.qp = .unwritten ∨ (i.isNop = false ∧ s.readPred i.qp = .val true)) ∧
          t.ip = s.ip ∧ t.ri = s.ri)) := by
  rcases exec_cases i s with ⟨unwritten, answer⟩ | ⟨v, -, answer⟩ | ⟨is_one, w, report, answer⟩
  · rw [answer] at h; cases h
    exact ⟨s.sameFrame_marked _, .inr ⟨.inl unwritten, rfl, rfl⟩⟩
  · rw [answer] at h; cases h
    exact ⟨s.sameFrame_after i, .inl (s.after_mark i)⟩
  · rw [answer] at h; cases h
    have not_nop : i.isNop = false := by
      rw [reported_eq] at report
      split at report
      · cases report
      · exact Bool.eq_false_iff.mpr ‹_›
    exact ⟨s.sameFrame_marked _, .inr ⟨.inr ⟨not_nop, is_one⟩, rfl, rfl⟩⟩

/-- Settles O14: a `nop` changes the mark only under an unwritten predicate. -/
theorem nopFrame : Obligations.NopFrame := by
  intro s t i nop h
  obtain ⟨frame, mark⟩ := exec_frame h
  refine frame.observed (mark.imp_right fun ⟨taken, stays⟩ => ⟨taken.resolve_right fun ⟨not_nop, _⟩ => ?_, stays⟩)
  rw [nop] at not_nop
  cases not_nop

/-- Settles O15: a `break` changes the mark only where its predicate is not 0. -/
theorem breakFrame : Obligations.BreakFrame := by
  intro s t i _ h
  obtain ⟨frame, mark⟩ := exec_frame h
  refine frame.observed (mark.imp_right fun ⟨taken, stays⟩ => ⟨?_, stays⟩)
  rcases taken with unwritten | ⟨-, is_one⟩
  · rw [unwritten]; nofun
  · rw [is_one]; nofun

/-! ### What an instruction does not read -/

/-- The same outcome with its next state changed. -/
def mapNext (f : State → State) : Result → Result
  | .next t => .next (f t)
  | .fault e => .fault e
  | .refused r => .refused r

/-- A change of the state that a step does not look at, nor undo, but for what a predicate reads and a fetch finds. -/
structure Unseen (f : State → State) : Prop where
  ip (s : State) : (f s).ip = s.ip
  ri (s : State) : (f s).ri = s.ri
  rrbPr (s : State) : (f s).rrbPr = s.rrbPr
  mark (s : State) : (f s).mark = s.mark
  endIp (s : State) : (f s).endIp = s.endIp
  marked (s : State) (k : Mark) : (f s).marked k = f (s.marked k)
  goto (s : State) (a : Word) (k : SlotIx) : (f s).goto a k = f (s.goto a k)

theorem unseen_setRegs (r : Regs) : Unseen fun s => { s with regs := r } :=
  ⟨fun _ => rfl, fun _ => rfl, fun _ => rfl, fun _ => rfl, fun _ => rfl, fun _ _ => rfl, fun _ _ _ => rfl⟩

theorem unseen_setText (m : Memory) : Unseen fun s => { s with text := m } :=
  ⟨fun _ => rfl, fun _ => rfl, fun _ => rfl, fun _ => rfl, fun _ => rfl, fun _ _ => rfl, fun _ _ _ => rfl⟩

section
variable {f : State → State} (hf : Unseen f)
include hf

theorem Unseen.after (s : State) (i : Instr) : (f s).after i = f (s.after i) := by
  rw [State.after_eq, State.after_eq, State.nextBundle, State.nextBundle, hf.ip, hf.ri, hf.goto, hf.goto]
  split_ifs <;> rfl

theorem Unseen.raise (s : State) (e : Word → SlotIx → Fault) : (f s).raise e = mapNext f (s.raise e) := by
  rw [State.raise_eq, State.raise_eq, hf.ip, hf.ri, hf.marked]
  rfl

/-- An instruction answers alike after an unseen change that its predicate does not show. -/
theorem Unseen.exec {s : State} {i : Instr} (pred : (f s).readPred i.qp = s.readPred i.qp) :
    exec i (f s) = mapNext f (exec i s) := by
  have effect : executed i (f s) = mapNext f (executed i s) := by
    rw [executed, executed]
    split
    · exact hf.raise _ _
    · rw [hf.after]; rfl
  rw [exec_eq, exec_eq, State.predicated, State.predicated, pred, hf.rrbPr]
  cases s.readPred i.qp with
  | unwritten => exact hf.raise _ _
  | val v =>
    cases v with
    | true => exact effect
    | false => exact congrArg Host.Outcome.next (hf.after s i)

end

/-- Settles O16: a change of the registers is unseen. -/
theorem onlyThePredicateIsRead : Obligations.OnlyThePredicateIsRead := by
  intro s t i r pred h
  rw [(unseen_setRegs r).exec pred, h]
  rfl

end Machine
end Sys2Proof
end

section
/-!
PROOF. Memory and the fetch (spec/00_scope.md rule R8, spec/20_memory.md rules R40, R41): a canonical memory is its bytes,
and a fetch finds a bundle exactly where its sixteen bytes are; from the first, O32.
-/

namespace Sys2Proof.Machine

/-! ### Canonical memories -/

/-- A canonical memory reads at an address the byte it lists there (R40). -/
theorem Memory.read_eq_some_iff {m : Memory} (hm : m.wf) (a : Nat) (b : Byte) : m.read a = some b ↔ (a, b) ∈ m := by
  obtain ⟨rising, -⟩ := hm
  induction m with
  | nil => simp [Memory.read, Memory.unlisted]
  | cons c rest ih =>
    obtain ⟨first, rising⟩ := List.pairwise_cons.mp rising
    rw [Memory.read, List.mem_cons]
    by_cases here : c.1 = a
    · have not_later : (a, b) ∉ rest := fun later => absurd (first _ later) (by simp [here])
      simp only [here, if_true, not_later, or_false, Option.some.injEq, Prod.ext_iff, true_and, eq_comm]
    · have not_first : (a, b) ≠ c := fun h => here (by rw [← h])
      rw [if_neg here]
      split_ifs with before
      · have not_later : (a, b) ∉ rest := fun later => absurd (first _ later) (by simpa using before.le)
        simp [Memory.unlisted, not_first, not_later]
      · simp [ih rising, not_first]

/-- Settles O32: two rising lists with the same members are one list. -/
theorem canonicalMemoryIsItsBytes : Obligations.CanonicalMemoryIsItsBytes := by
  intro m m' hm hm' same
  have members (c : Host.Cell) : c ∈ m ↔ c ∈ m' := by
    rw [← Memory.read_eq_some_iff hm, ← Memory.read_eq_some_iff hm', same]
  have rising_lt : Std.Irrefl fun c d : Host.Cell => c.1 < d.1 := ⟨fun _ => lt_irrefl _⟩
  have rising_asymm : Std.Antisymm fun c d : Host.Cell => c.1 < d.1 :=
    ⟨fun _ _ h h' => absurd h' h.asymm⟩
  exact hm.1.eq_of_mem_iff hm'.1 members

/-! ### The fetch -/

/-- Bytes are read exactly where every one of them is there. -/
theorem Memory.readBytes_isSome_iff (m : Memory) (a : Word) (n : Nat) :
    (m.readBytes a n).isSome ↔ ∀ k < n, (m.read (a + BitVec.ofNat 64 k).toNat).isSome := by
  induction n generalizing a with
  | zero => simp [Memory.readBytes]
  | succ n ih =>
    have split_first : (m.readBytes a (n + 1)).isSome ↔ (m.read a.toNat).isSome ∧ (m.readBytes (a + 1) n).isSome := by
      rw [Memory.readBytes]
      cases m.read a.toNat <;> cases m.readBytes (a + 1) n <;> simp
    rw [split_first, ih, Nat.forall_lt_succ_left]
    simp only [succ_add_ofNat, BitVec.add_zero]

/-- Nothing is fetched exactly where one of the sixteen bytes is absent (R41, log entry 5). -/
theorem fetchBundle_eq_none_iff (m : Memory) (a : Word) :
    fetchBundle m a = none ↔ ∃ k < 16, m.read (a + BitVec.ofNat 64 k).toNat = none := by
  rw [← Option.not_isSome_iff_eq_none, fetchBundle, Memory.memRead, Option.isSome_map,
    Memory.readBytes_isSome_iff]
  simp

/-- A value is its bytes. -/
theorem eq_of_bytes_eq {n : Nat} {v w : BitVec (8 * n)}
    (h : ∀ k < n, v.extractLsb' (8 * k) 8 = w.extractLsb' (8 * k) 8) : v = w := by
  apply BitVec.eq_of_getLsbD_eq
  intro i hi
  have byte := congrArg (fun b => b.getLsbD (i % 8)) (h (i / 8) (by omega))
  simpa [Nat.mod_lt, Nat.div_add_mod] using byte

/-- The fetch gives a value exactly where memory holds its bytes, the least significant first (R41). -/
theorem fetchBundle_eq_some_iff (m : Memory) (a : Word) (B : BundleBits) :
    fetchBundle m a = some B ↔ ∀ k < 16, m.read (a + BitVec.ofNat 64 k).toNat = some (B.extractLsb' (8 * k) 8) := by
  refine ⟨fun fetched k hk => Memory.read_of_memRead fetched hk, fun bytes => ?_⟩
  cases fetched : fetchBundle m a with
  | none =>
    obtain ⟨k, hk, absent⟩ := (fetchBundle_eq_none_iff m a).mp fetched
    rw [bytes k hk] at absent
    cases absent
  | some B' =>
    congr 1
    refine eq_of_bytes_eq (n := 16) fun k hk => Option.some.inj ?_
    rw [← bytes k hk, Memory.read_of_memRead fetched hk]

end Sys2Proof.Machine
end

section
/-!
PROOF. The step (spec/40_sequencing.md rules R90 to R97, spec/60_exceptions.md rules R121, R122, R127): what it answers
for each mark and, in a running state, check by check; from these, O1, O2, O4, O5, O6, O17, O18 and O28.
-/

namespace Sys2Proof.Machine

/-! ### The step by mark -/

theorem step_of_faulted {s : State} {f : Fault} (h : s.mark = .faulted f) : step s = .fault f := by
  simp only [step, State.action, h]

theorem step_of_refused {s : State} {r : Refusal} (h : s.mark = .refused r) : step s = .refused r := by
  simp only [step, State.action, h]

theorem step_of_final {s : State} (h : s.mark = .final) : step s = .next s := by
  simp only [step, State.action, h]

/-- Settles O5: each terminal mark's step, and for the final mark an induction on the number of steps. -/
theorem terminalStatesStay : Obligations.TerminalStatesStay := by
  refine fun s k => ⟨fun f h => run_fault (step_of_faulted h) k, fun r h => run_refused (step_of_refused h) k,
    fun h => ?_⟩
  induction k with
  | zero => exact run_zero s
  | succ k ih => rw [run_next (step_of_final h), ih]

/-! ### The step of a running state -/

/-- What a running state's step answers to what its slot decodes to (R92, R93, R76). -/
def State.onDecoded (s : State) : Decoded → Result
  | .reservedTemplate t => s.raise (.illegalOperation (.reservedTemplate t))
  | .slotTwoOfMLX => .refused (.badLaunch .slotTwoOfMLX)
  | .unknownEncoding u b => .refused (.unknownEncoding u b)
  | .instr i => exec i s

section
variable {s : State} (running : s.mark = .running)
include running

theorem step_at_end (at_end : s.ip = s.endIp ∧ s.ri = 0) : step s = .next (s.marked .final) := by
  simp only [step, State.action, running, State.runningAction, if_pos at_end]

theorem step_of_misaligned (not_end : ¬(s.ip = s.endIp ∧ s.ri = 0)) (misaligned : s.ip.toNat % 16 ≠ 0) :
    step s = .refused (.badLaunch .misalignedEntry) := by
  rw [Ne, ← isBundleAddress_iff] at misaligned
  simp only [step, State.action, running, State.runningAction, if_neg not_end, if_neg misaligned]

variable (not_end : ¬(s.ip = s.endIp ∧ s.ri = 0)) (aligned : s.ip.toNat % 16 = 0)
include not_end aligned

theorem step_of_noText (absent : fetchBundle s.text s.ip = none) : step s = .refused (.noText s.ip) := by
  rw [← isBundleAddress_iff] at aligned
  simp only [step, State.action, running, State.runningAction, if_neg not_end, if_pos aligned, absent]

theorem step_of_fetched {B : BundleBits} (fetched : fetchBundle s.text s.ip = some B) :
    step s = s.onDecoded (decodeSlot B s.ri) := by
  rw [← isBundleAddress_iff] at aligned
  simp only [step, State.action, running, State.runningAction, if_neg not_end, if_pos aligned, fetched,
    State.actionOn]
  cases decodeSlot B s.ri <;> rfl

end

/-- Settles O1. -/
theorem stepRunsDecodedInstruction : Obligations.StepRunsDecodedInstruction :=
  fun _ _ _ running not_end aligned fetched decoded => step_instr running not_end aligned fetched decoded

/-- A running state that is not at its end is not made final (R97). -/
theorem not_final_of_step {s t : State} (running : s.mark = .running) (not_end : ¬(s.ip = s.endIp ∧ s.ri = 0))
    (h : step s = .next t) : t.mark ≠ .final := by
  rcases step_cases h with ⟨final, -⟩ | ⟨-, ip, ri, -⟩ | ⟨-, f, rfl, -⟩ | ⟨-, -, B, i, -, -, rfl⟩
  · rw [running] at final; cases final
  · exact absurd ⟨ip, ri⟩ not_end
  · nofun
  · rw [State.after_mark, running]; nofun

/-- Settles O4: the test for the end comes before any fetch. -/
theorem runEndsAtEndIp : Obligations.RunEndsAtEndIp :=
  fun s m running => ⟨step_at_end (s := { s with text := m }) running,
    fun not_end _ => not_final_of_step (s := { s with text := m }) running not_end⟩

/-! ### Reserved templates and unknown encodings -/

/-- Settles O17: a blank template row is reserved at every slot index. -/
theorem reservedTemplateFaults : Obligations.ReservedTemplateFaults := by
  intro s t s0 s1 s2 blank running not_end aligned fetched
  have reserved : templateUnits t = none := by
    rw [templateUnits_eq_none_iff]
    exact List.mem_map_of_mem (f := BitVec.toNat) blank
  rw [step_of_fetched running not_end aligned fetched, decodeSlot_reserved] <;> rw [bundleTemplate_bundleOf]
  · rfl
  · exact reserved

theorem decodeAs_of_none {u : UnitType} {l s : SlotBits} (h : decodeUnit u l s = none) :
    decodeAs u l s = .unknownEncoding u s := by
  rw [decodeAs, h]

/-- Settles O18: the slot of a unit other than L by itself, and an L slot together with Slot 2. -/
theorem unknownEncodingRefused : Obligations.UnknownEncodingRefused := by
  intro s B u running not_end aligned fetched unit
  have answer := step_of_fetched running not_end aligned fetched
  constructor
  · intro not_l not_x unknown
    rw [answer, decodeSlot_of_unit unit not_l not_x, decodeAs_of_none unknown]
    rfl
  · rintro rfl unknown
    obtain ⟨at_one, mlx⟩ := ((templateUnit_long _).1 _).mp unit
    rw [answer, at_one, decodeSlot_one_of_isMLX mlx, decodeAs_of_none unknown]
    rfl

/-! ### The order of all checks -/

/-- An assigned template's slot, elsewhere than at index 2 of an MLX bundle, is decoded for unit X at the L slot and for
its own unit at any other; only for unit X is the L slot read. -/
theorem decodeSlot_eq_decodeAs {B : BundleBits} {k : SlotIx} {long : Bool}
    (at_long : decide (k = 1 ∧ isMLX (bundleTemplate B) = true) = long)
    (assigned : templateUnits (bundleTemplate B) ≠ none) (not_two : ¬(k = 2 ∧ isMLX (bundleTemplate B) = true)) :
    let u := if long then .x else (templateUnit (bundleTemplate B) k).getD .m
    (u = .x ↔ long = true) ∧
      decodeSlot B k = decodeAs u (bundleSlot B 1) (if long then bundleSlot B 2 else bundleSlot B k) := by
  cases long with
  | true =>
    obtain ⟨rfl, mlx⟩ := of_decide_eq_true at_long
    exact ⟨by simp, decodeSlot_one_of_isMLX mlx⟩
  | false =>
    obtain ⟨u, unit⟩ : ∃ u, templateUnit (bundleTemplate B) k = some u := by
      obtain ⟨units, row⟩ := Option.ne_none_iff_exists'.mp assigned
      exact ⟨_, congrArg (Option.map _) row⟩
    have not_l : u ≠ .l := fun l => of_decide_eq_false at_long (((templateUnit_long _).1 k).mp (l ▸ unit))
    have not_x : u ≠ .x := fun x => not_two (((templateUnit_long _).2 k).mp (x ▸ unit))
    simp only [unit, Bool.false_eq_true, if_false, Option.getD_some]
    refine ⟨by simp [not_x], ?_⟩
    rw [decodeSlot_of_unit unit not_l not_x, decodeAs, decodeAs, decodeUnit_longBits not_x 0 (bundleSlot B 1)]

/-- What an instruction answers on a predicate that holds a value: the fault of a `break`, or the advance. -/
theorem exec_of_val {s : State} {i : Instr} {v : Bool} (h : s.readPred i.qp = .val v) :
    exec i s =
      if v ∧ ¬i.isNop then
        .next (s.marked (.faulted (.breakInstruction
          (if i.unit = .b then 0 else BitVec.ofNat 64 i.immediate) s.ip s.ri)))
      else if s.ri = 2 ∨ i.unit = .x then .next (s.goto (s.ip + 16) 0)
      else .next (s.goto s.ip (s.ri + 1)) := by
  by_cases taken : v ∧ ¬i.isNop
  · obtain ⟨rfl, not_nop⟩ := taken
    rw [if_pos ⟨rfl, not_nop⟩, exec_break (Bool.eq_false_iff.mpr not_nop) h]
  · have advances : exec i s = .next (s.after i) := by
      cases v with
      | false => exact exec_nullified h
      | true => exact exec_nop (by simpa using taken) h
    rw [if_neg taken, advances, State.after_eq]
    simp only [or_comm (a := i.unit = .x)]
    split_ifs <;> rfl

/-- Settles O2: the checks in turn; an instruction that is met is of the unit its slot was decoded for. -/
theorem checksOfStepInOrder : Obligations.ChecksOfStepInOrder := by
  intro s running aligned
  by_cases at_end : s.ip = s.endIp ∧ s.ri = 0
  · rw [if_pos at_end, step_at_end running at_end]
  rw [if_neg at_end]
  cases fetched : fetchBundle s.text s.ip with
  | none => exact step_of_noText running at_end aligned fetched
  | some B =>
    rw [step_of_fetched running at_end aligned fetched]
    dsimp only
    by_cases reserved : templateUnits (bundleTemplate B) = none
    · rw [decodeSlot_reserved reserved, reserved]
      rfl
    rw [if_neg (by simpa using reserved)]
    by_cases two : s.ri = 2 ∧ isMLX (bundleTemplate B) = true
    · rw [if_pos two, two.1, decodeSlot_two_of_isMLX two.2]
      rfl
    rw [if_neg two]
    generalize at_long : decide (s.ri = 1 ∧ isMLX (bundleTemplate B) = true) = long
    obtain ⟨unit_x, decoded⟩ := decodeSlot_eq_decodeAs at_long reserved two
    rw [decoded]
    generalize (if long = true then UnitType.x else (templateUnit (bundleTemplate B) s.ri).getD .m) = u at unit_x ⊢
    generalize (if long = true then bundleSlot B 2 else bundleSlot B s.ri) = b
    cases matched : decodeUnit u (bundleSlot B 1) b with
    | none => rw [decodeAs_of_none matched]; rfl
    | some i =>
      obtain ⟨rfl, -, -⟩ := decodeUnit_some matched
      rw [decodeAs_eq_instr.mpr matched, State.onDecoded]
      dsimp only
      cases pred : s.readPred i.qp with
      | unwritten => exact exec_unwritten pred
      | val v => simp only [exec_of_val pred, unit_x]

/-! ### What a step can stop with -/

/-- An undecodable slot is one of the bundle's, and no row of its unit matches it (R76). -/
theorem decodeSlot_eq_unknownEncoding {B : BundleBits} {k : SlotIx} {u : UnitType} {b : SlotBits}
    (h : decodeSlot B k = .unknownEncoding u b) :
    ∃ k', b = bundleSlot B k' ∧ decodeUnit u (bundleSlot B 1) (bundleSlot B k') = none := by
  have assigned : templateUnits (bundleTemplate B) ≠ none := fun blank => by
    rw [decodeSlot_reserved blank] at h; cases h
  have not_two : ¬(k = 2 ∧ isMLX (bundleTemplate B) = true) := fun ⟨two, mlx⟩ => by
    rw [two, decodeSlot_two_of_isMLX mlx] at h; cases h
  obtain ⟨-, decoded⟩ := decodeSlot_eq_decodeAs rfl assigned not_two
  rw [decoded, decodeAs] at h
  split at h
  · cases h
  · injection h with unit slot
    subst unit slot
    rw [← apply_ite (bundleSlot B)] at *
    exact ⟨_, rfl, ‹_›⟩

/-- An instruction's answer is a next state. -/
theorem exec_is_next (i : Instr) (s : State) : ∃ t, exec i s = .next t := by
  rcases exec_cases i s with ⟨-, answer⟩ | ⟨_, -, answer⟩ | ⟨-, _, -, answer⟩ <;> exact ⟨_, answer⟩

/-- The refusals of a running state that is not at its end, each with what it is met at (R122, R127). -/
def State.RefusedFor (s : State) (r : Refusal) : Prop :=
  (r = .noText s.ip ∧ ∃ k < 16, s.text.read (s.ip + BitVec.ofNat 64 k).toNat = none) ∨
    (∃ B u k, fetchBundle s.text s.ip = some B ∧ decodeUnit u (bundleSlot B 1) (bundleSlot B k) = none ∧
      r = .unknownEncoding u (bundleSlot B k)) ∨
    (r = .badLaunch .slotTwoOfMLX ∧ s.ri = 2 ∧ ∃ B, fetchBundle s.text s.ip = some B ∧
      (bundleTemplate B = 0x04 ∨ bundleTemplate B = 0x05)) ∨
    (r = .badLaunch .misalignedEntry ∧ s.ip.toNat % 16 ≠ 0)

/-- A running state's step answers a next state, or one of these refusals. -/
theorem step_of_running {s : State} (running : s.mark = .running) :
    (∃ t, step s = .next t) ∨
      ∃ r, step s = .refused r ∧ ¬(s.ip = s.endIp ∧ s.ri = 0) ∧ s.RefusedFor r := by
  by_cases at_end : s.ip = s.endIp ∧ s.ri = 0
  · exact .inl ⟨_, step_at_end running at_end⟩
  by_cases aligned : s.ip.toNat % 16 = 0
  case neg => exact .inr ⟨_, step_of_misaligned running at_end aligned, at_end, .inr (.inr (.inr ⟨rfl, aligned⟩))⟩
  cases fetched : fetchBundle s.text s.ip with
  | none =>
    have absent := (fetchBundle_eq_none_iff _ _).mp fetched
    exact .inr ⟨_, step_of_noText running at_end aligned fetched, at_end, .inl ⟨rfl, absent⟩⟩
  | some B =>
    rw [step_of_fetched running at_end aligned fetched]
    cases decoded : decodeSlot B s.ri with
    | reservedTemplate t => exact .inl ⟨_, rfl⟩
    | instr i => exact .inl (exec_is_next i s)
    | unknownEncoding u b =>
      obtain ⟨k, rfl, unknown⟩ := decodeSlot_eq_unknownEncoding decoded
      exact .inr ⟨_, rfl, at_end, .inr (.inl ⟨B, u, k, fetched, unknown, rfl⟩)⟩
    | slotTwoOfMLX =>
      obtain ⟨two, mlx⟩ := decodeSlot_eq_slotTwo decoded
      exact .inr ⟨_, rfl, at_end, .inr (.inr (.inl ⟨rfl, two, B, fetched, (isMLX_iff _).mp mlx⟩))⟩

/-- Settles O6: mark by mark, and for a running state by the checks of its step. -/
theorem onlyTheseStops : Obligations.OnlyTheseStops := by
  intro s
  cases mark : s.mark with
  | faulted f =>
    rw [step_of_faulted mark]
    simp
  | refused r =>
    rw [step_of_refused mark]
    simp
  | final =>
    rw [step_of_final mark]
    simp
  | running =>
    rcases step_of_running mark with ⟨t, answer⟩ | ⟨r, answer, not_end, met⟩ <;> rw [answer]
    · simp
    · refine ⟨by simp, fun r' h => ?_⟩
      cases h
      exact .inr ⟨rfl, not_end, met⟩

/-- Settles O31: the bytes of a fetched value, and the refusal where one of them is absent. -/
theorem fetchIsLittleEndian : Obligations.FetchIsLittleEndian :=
  ⟨fetchBundle_eq_some_iff, fun _ running not_end aligned absent =>
    step_of_noText running not_end aligned ((fetchBundle_eq_none_iff _ _).mpr absent)⟩

/-! ### Stops -/

/-- Templates of the same units decode the same slots alike (R65, R75). -/
theorem decodeSlot_bundleOf_congr {t t' : Template} (units : templateUnits t = templateUnits t')
    (assigned : (templateUnits t).isSome) (s0 s1 s2 : SlotBits) (k : SlotIx) :
    decodeSlot (bundleOf t s0 s1 s2) k = decodeSlot (bundleOf t' s0 s1 s2) k := by
  obtain ⟨row, units_t⟩ := Option.isSome_iff_exists.mp assigned
  simp only [decodeSlot, templateUnit, bundleTemplate_bundleOf, bundleSlot_bundleOf, ← units, units_t,
    Option.map_some]
  generalize (if k = 0 then row.1 else if k = 1 then row.2.1 else row.2.2) = u
  cases u <;> rfl

/-- A step answers alike after an unseen change, if no predicate shows it and what is fetched decodes alike. -/
theorem Unseen.step {f : State → State} (hf : Unseen f) {s : State} (preds : ∀ p, (f s).readPred p = s.readPred p)
    {B B' : BundleBits} (fetched : fetchBundle s.text s.ip = some B) (fetched' : fetchBundle (f s).text s.ip = some B')
    (alike : decodeSlot B s.ri = decodeSlot B' s.ri) : step (f s) = mapNext f (step s) := by
  have mark_eq := hf.mark s
  cases mark : s.mark <;> rw [mark] at mark_eq
  case faulted e => rw [step_of_faulted mark, step_of_faulted mark_eq]; rfl
  case refused r => rw [step_of_refused mark, step_of_refused mark_eq]; rfl
  case final => rw [step_of_final mark, step_of_final mark_eq]; rfl
  case running =>
    have end_iff : (f s).ip = (f s).endIp ∧ (f s).ri = 0 ↔ s.ip = s.endIp ∧ s.ri = 0 := by
      rw [hf.ip, hf.endIp, hf.ri]
    by_cases at_end : s.ip = s.endIp ∧ s.ri = 0
    · rw [step_at_end mark at_end, step_at_end mark_eq (end_iff.mpr at_end), hf.marked]; rfl
    have not_end := mt end_iff.mp at_end
    rw [← hf.ip] at fetched'
    by_cases aligned : s.ip.toNat % 16 = 0 <;> have aligned' := aligned <;> rw [← hf.ip] at aligned'
    · rw [step_of_fetched mark at_end aligned fetched, step_of_fetched mark_eq not_end aligned' fetched', hf.ri, alike]
      cases decodeSlot B' s.ri with
      | instr i => exact hf.exec (preds _)
      | reservedTemplate t => exact hf.raise s _
      | _ => rfl
    · rw [step_of_misaligned mark at_end aligned, step_of_misaligned mark_eq not_end aligned']; rfl

/-- Settles O28: a stop changes the template code and not its units. -/
theorem stopsChangeNoResult : Obligations.StopsChangeNoResult := by
  intro t t' s0 s1 s2 units assigned
  have alike := decodeSlot_bundleOf_congr units assigned s0 s1 s2
  refine ⟨alike, fun s m m' fetched fetched' => ?_⟩
  have same_step := (unseen_setText m').step (s := { s with text := m }) (fun _ => rfl) fetched fetched' (alike s.ri)
  dsimp only at same_step
  rw [same_step]
  cases step { s with text := m } <;> rfl

end Sys2Proof.Machine
end

section
/-!
PROOF. What every step keeps (spec/10_state.md rules R18, R26, R30, spec/20_memory.md rule R40, spec/60_exceptions.md
rules R120, R124): the frame, and the invariant of the machine; from these, O19, O20, O33, O38 and O40 to O42.
-/

namespace Sys2Proof.Machine

/-! ### The frame of a step -/

/-- No step changes a register, the rename base, the text or `end_ip` (R26, R40). -/
theorem sameFrame_of_step {s t : State} (h : step s = .next t) : s.SameFrame t := by
  rcases step_cases h with ⟨-, rfl⟩ | ⟨-, -, -, rfl⟩ | ⟨-, f, rfl, -⟩ | ⟨-, -, B, i, -, -, rfl⟩
  · exact ⟨rfl, rfl, rfl, rfl⟩
  · exact s.sameFrame_marked _
  · exact s.sameFrame_marked _
  · exact s.sameFrame_after i

theorem State.readPred_congr {s t : State} (regs : t.regs = s.regs) (rrbPr : t.rrbPr = s.rrbPr) (p : PredNum) :
    t.readPred p = s.readPred p := by
  rw [State.readPred, State.readPred, rrbPr, State.readPR_congr regs]

/-- Settles O33. -/
theorem textIsImmutable : Obligations.TextIsImmutable := by
  intro s t h
  obtain ⟨-, -, text, -⟩ := sameFrame_of_step h
  exact ⟨text, fun a => by rw [text]⟩

/-- Settles O38. -/
theorem stepWritesNoRegister : Obligations.StepWritesNoRegister := by
  intro s t h
  obtain ⟨regs, rrbPr, -, endIp⟩ := sameFrame_of_step h
  exact ⟨regs, rrbPr, endIp, State.readPred_congr regs rrbPr⟩

/-! ### Faults -/

/-- Settles O19: of what a step can do, only taking a fault marks the state so. -/
theorem faultIsPrecise : Obligations.FaultIsPrecise := by
  intro s t f running h faulted
  rcases step_cases h with ⟨final, -⟩ | ⟨-, -, -, rfl⟩ | ⟨-, f', rfl, ip, ri, -⟩ | ⟨-, -, B, i, -, -, rfl⟩
  · rw [running] at final; cases final
  · cases faulted
  · cases faulted
    exact ⟨rfl, ip, ri⟩
  · rw [State.after_mark, running] at faulted
    cases faulted

/-- The fault of an unwritten register has not been taken, and no predicate can cause it (R30, R142). -/
def State.NeverUnwritten (s : State) : Prop :=
  s.predicatesWritten ∧ ∀ n a j, s.mark ≠ .faulted (.unwrittenRegister n a j)

theorem neverUnwritten_of_step {s t : State} (hs : s.NeverUnwritten) (h : step s = .next t) : t.NeverUnwritten := by
  obtain ⟨written, not_taken⟩ := hs
  refine ⟨fun j => ?_, ?_⟩
  · rw [State.readPR_congr (sameFrame_of_step h).1]
    exact written j
  · rcases step_cases h with ⟨-, rfl⟩ | ⟨-, -, -, rfl⟩ | ⟨-, f, rfl, ip, ri, cause⟩ | ⟨running, -, B, i, -, -, rfl⟩
    · exact not_taken
    · nofun
    · rintro n a j mark
      cases mark
      obtain rfl : a = s.ip := ip
      obtain rfl : j = s.ri := ri
      obtain ⟨p, unwritten⟩ := cause ⟨n, rfl⟩
      exact written _ unwritten
    · rw [State.after_mark, running]
      nofun

/-- At reset every register holds a value (log entry 3). -/
theorem State.reset_predicatesWritten : State.reset.predicatesWritten := by
  intro j
  rw [State.readPR]
  split
  · nofun
  · simp [State.reset, Regs.reset]

/-- Settles O20: along the run no predicate loses its value. -/
theorem writtenPredicatesNeverFault : Obligations.WrittenPredicatesNeverFault := by
  refine ⟨State.reset_predicatesWritten, fun s t k n a j written running run => ?_⟩
  have kept : s.NeverUnwritten → t.NeverUnwritten :=
    run_induction (P := fun s t => s.NeverUnwritten → t.NeverUnwritten) (fun _ h => h)
      (fun _ _ _ h ih hs => ih (neverUnwritten_of_step hs h)) run
  exact (kept ⟨written, fun n a j => by rw [running]; nofun⟩).2 n a j

/-! ### The invariant -/

/-- A state that meets the invariant meets it with another mark, if what the invariant asks of the mark holds. -/
theorem State.Inv.marked {s : State} (hs : s.Inv) {k : Mark} (not_running : k ≠ .running)
    (record : ∀ f, k = .faulted f → f.ip = s.ip ∧ f.ri = s.ri) (final : k = .final → s.ip = s.endIp ∧ s.ri = 0) :
    (s.marked k).Inv where
  ipAligned := hs.ipAligned
  endAligned := hs.endAligned
  rrbLegal := hs.rrbLegal
  textWf := hs.textWf
  notInsideLong := fun running => absurd running not_running
  faultRecord := record
  finalAtEnd := final

/-- A running state that meets the invariant meets it at another slot of a bundle address, if that is no slot to avoid. -/
theorem State.Inv.goto {s : State} (hs : s.Inv) (running : s.mark = .running) {a : Word} {k : SlotIx}
    (aligned : a.toNat % 16 = 0)
    (not_inside : ∀ B, fetchBundle s.text a = some B → ¬(k = 2 ∧ isMLX (bundleTemplate B) = true)) :
    (s.goto a k).Inv where
  ipAligned := aligned
  endAligned := hs.endAligned
  rrbLegal := hs.rrbLegal
  textWf := hs.textWf
  notInsideLong := fun _ => not_inside
  faultRecord := fun f faulted => by rw [State.goto_mark, running] at faulted; cases faulted
  finalAtEnd := fun final => by rw [State.goto_mark, running] at final; cases final

/-- The advance after a decoded instruction never comes to Slot 2 of an MLX bundle (R93, R94). -/
theorem State.Inv.after {s : State} (hs : s.Inv) (running : s.mark = .running) {B : BundleBits} {i : Instr}
    (fetched : fetchBundle s.text s.ip = some B) (decoded : decodeSlot B s.ri = .instr i) : (s.after i).Inv := by
  rw [State.after_of_decodeSlot decoded]
  split_ifs with leaves
  · exact hs.goto running (add_16_aligned hs.ipAligned) fun _ _ ⟨two, _⟩ => absurd two (by decide)
  · have before_two : ∀ k : SlotIx, k + 1 = 2 → k = 1 := by decide
    refine hs.goto running hs.ipAligned fun B' fetched' ⟨two, mlx⟩ => leaves (.inr ⟨before_two _ two, ?_⟩)
    obtain rfl : B = B' := Option.some.inj (fetched.symm.trans fetched')
    exact (isMLX_iff _).mp mlx

/-- Settles O41: case by case of what a step can do. -/
theorem everyStepKeepsInvariant : Obligations.EveryStepKeepsInvariant := by
  intro s t hs h
  rcases step_cases h with
    ⟨-, rfl⟩ | ⟨-, ip, ri, rfl⟩ | ⟨-, f, rfl, ip, ri, -⟩ | ⟨running, -, B, i, fetched, decoded, rfl⟩
  · exact hs
  · exact hs.marked (by nofun) (by nofun) fun _ => ⟨ip, ri⟩
  · exact hs.marked (by nofun) (fun f' faulted => by cases faulted; exact ⟨ip, ri⟩) (by nofun)
  · exact hs.after running fetched decoded

/-- Settles O40. -/
theorem resetMeetsInvariant : Obligations.ResetMeetsInvariant where
  ipAligned := rfl
  endAligned := rfl
  rrbLegal := Nat.zero_le 47
  textWf := reset_text_wf
  notInsideLong := fun _ _ _ ⟨two, _⟩ => absurd two (by decide)
  faultRecord := nofun
  finalAtEnd := nofun

/-- Settles O42: the two bad launches that a step can refuse are what the invariant rules out. -/
theorem badLaunchIsNeverReached : Obligations.BadLaunchIsNeverReached := by
  intro s e hs running refused
  rcases step_of_running running with ⟨t, answer⟩ | ⟨r, answer, -, met⟩ <;> rw [refused] at answer <;> cases answer
  rcases met with ⟨no_text, -⟩ | ⟨B, u, k, -, -, unknown⟩ | ⟨-, two, B, fetched, mlx⟩ | ⟨-, misaligned⟩
  · cases no_text
  · cases unknown
  · exact hs.notInsideLong running B fetched ⟨two, (isMLX_iff _).mpr mlx⟩
  · exact misaligned hs.ipAligned

end Sys2Proof.Machine
end

section
/-!
PROOF. Launches and runs (spec/70_reset_and_hazards.md rules R141, R153, spec/40_sequencing.md rule R97): which launches
run, what a run ends in, and that a bundle of `nop`s falls through; from these, O43 to O46.
-/

namespace Sys2Proof.Machine

/-! ### The checks of a launch -/

/-- The launch enters an MLX bundle at its Slot 2 (R141). -/
def Launch.EntersSlotTwo (l : Launch) : Prop :=
  l.ri = 2 ∧ ∃ B, fetchBundle l.text l.entryIp = some B ∧ (bundleTemplate B = 0x04 ∨ bundleTemplate B = 0x05)

theorem Launch.entersMLX_iff (l : Launch) :
    l.entersMLX = true ↔
      ∃ B, fetchBundle l.text l.entryIp = some B ∧ (bundleTemplate B = 0x04 ∨ bundleTemplate B = 0x05) := by
  rw [Launch.entersMLX]
  cases fetchBundle l.text l.entryIp <;> simp [isMLX_iff]

/-- What each reason of a bad launch says of it (R141). -/
def Launch.FailsFor (l : Launch) : LaunchError → Prop
  | .misalignedEntry => l.entryIp.toNat % 16 ≠ 0
  | .misalignedEnd => l.endIp.toNat % 16 ≠ 0
  | .badRrbPr => 47 < l.rrbPr.toNat
  | .slotTwoOfMLX => l.EntersSlotTwo

/-- A launch passes the four checks, or one fails and is reported (R141). -/
theorem Launch.error_cases (l : Launch) :
    (l.error = none ∧ ∀ e, ¬l.FailsFor e) ∨ ∃ e, l.error = some e ∧ l.FailsFor e := by
  have misaligned (a : Word) : (!isBundleAddress a) = true ↔ a.toNat % 16 ≠ 0 := by
    rw [Bool.not_eq_true', Bool.eq_false_iff, Ne, isBundleAddress_iff]
  have slot_two : (decide (l.ri = 2) && l.entersMLX) = true ↔ l.EntersSlotTwo := by
    rw [Bool.and_eq_true, decide_eq_true_eq, Launch.entersMLX_iff, Launch.EntersSlotTwo]
  rw [Launch.error]
  split_ifs with entry fin rrb two
  · exact .inr ⟨_, rfl, (misaligned _).mp entry⟩
  · exact .inr ⟨_, rfl, (misaligned _).mp fin⟩
  · exact .inr ⟨_, rfl, rrb⟩
  · exact .inr ⟨_, rfl, slot_two.mp two⟩
  · refine .inl ⟨rfl, fun e => ?_⟩
    cases e with
    | misalignedEntry => exact mt (misaligned _).mpr entry
    | misalignedEnd => exact mt (misaligned _).mpr fin
    | badRrbPr => exact rrb
    | slotTwoOfMLX => exact mt slot_two.mpr two

/-- A launch runs, failing no check, or is refused for a check that it fails. -/
theorem Launch.start_mark_cases (l : Launch) :
    (l.start.mark = .running ∧ ∀ e, ¬l.FailsFor e) ∨
      ∃ e, l.start.mark = .refused (.badLaunch e) ∧ l.FailsFor e := by
  rcases l.error_cases with ⟨error, good⟩ | ⟨e, error, fails⟩
  · exact .inl ⟨by rw [Launch.start_mark, error], good⟩
  · exact .inr ⟨e, by rw [Launch.start_mark, error], fails⟩

/-- A launch runs exactly when it fails no check (R141). -/
theorem Launch.start_running_iff (l : Launch) : l.start.mark = .running ↔ ∀ e, ¬l.FailsFor e := by
  rcases l.start_mark_cases with ⟨running, good⟩ | ⟨e, refused, fails⟩
  · exact iff_of_true running good
  · exact iff_of_false (by rw [refused]; nofun) fun good => good e fails

/-- The four checks, each by what it asks for. -/
theorem Launch.forall_not_failsFor (l : Launch) :
    (∀ e, ¬l.FailsFor e) ↔
      l.entryIp.toNat % 16 = 0 ∧ l.endIp.toNat % 16 = 0 ∧ l.rrbPr.toNat ≤ 47 ∧ ¬l.EntersSlotTwo := by
  constructor
  · intro good
    exact ⟨not_not.mp (good .misalignedEntry), not_not.mp (good .misalignedEnd), not_lt.mp (good .badRrbPr),
      good .slotTwoOfMLX⟩
  · rintro ⟨entry, fin, rrb, two⟩ e
    cases e with
    | misalignedEntry => exact not_not.mpr entry
    | misalignedEnd => exact not_not.mpr fin
    | badRrbPr => exact not_lt.mpr rrb
    | slotTwoOfMLX => exact two

/-- Settles O43: a launch that does not run keeps its refusal. -/
theorem badLaunchesAreRefused : Obligations.BadLaunchesAreRefused := by
  refine fun l => ⟨⟨rfl, rfl, rfl, rfl, rfl, rfl⟩, l.start_running_iff.trans l.forall_not_failsFor,
    fun not_running => ?_⟩
  rcases l.start_mark_cases with ⟨running, -⟩ | ⟨e, refused, fails⟩
  · exact absurd running not_running
  · refine ⟨e, fun k => ⟨run_refused (step_of_refused refused) k, ?_, ?_, ?_, ?_⟩⟩ <;> rintro rfl <;> exact fails

/-- A launch that runs, with canonical text, meets the invariant (R141). -/
theorem Launch.start_inv {l : Launch} (text : l.text.wf) (running : l.start.mark = .running) : l.start.Inv := by
  obtain ⟨entry, fin, rrb, two⟩ := l.forall_not_failsFor.mp (l.start_running_iff.mp running)
  exact {
    ipAligned := entry
    endAligned := fin
    rrbLegal := rrb
    textWf := text
    notInsideLong := fun _ B fetched ⟨at_two, mlx⟩ => two ⟨at_two, B, fetched, (isMLX_iff _).mp mlx⟩
    faultRecord := fun f faulted => by rw [running] at faulted; cases faulted
    finalAtEnd := fun final => by rw [running] at final; cases final }

/-- Settles O44. -/
theorem goodLaunchMeetsInvariant : Obligations.GoodLaunchMeetsInvariant := fun _ text running =>
  Launch.start_inv text running

/-! ### The end of a run -/

/-- The invariant holds along every run. -/
theorem State.Inv.of_run {s t : State} {k : Nat} (hs : s.Inv) (run : Host.Core.run core k s = .next t) : t.Inv :=
  run_induction (P := fun s t => s.Inv → t.Inv) (fun _ h => h)
    (fun _ _ _ h ih hs => ih (everyStepKeepsInvariant _ _ hs h)) run hs

theorem State.SameFrame.trans {s u t : State} (h : s.SameFrame u) (h' : u.SameFrame t) : s.SameFrame t := by
  obtain ⟨regs, rrbPr, text, endIp⟩ := h
  obtain ⟨regs', rrbPr', text', endIp'⟩ := h'
  exact ⟨regs'.trans regs, rrbPr'.trans rrbPr, text'.trans text, endIp'.trans endIp⟩

/-- No run changes the frame. -/
theorem sameFrame_of_run {s t : State} {k : Nat} (run : Host.Core.run core k s = .next t) : s.SameFrame t :=
  run_induction (P := State.SameFrame) (fun _ => ⟨rfl, rfl, rfl, rfl⟩)
    (fun _ _ _ h ih => (sameFrame_of_step h).trans ih) run

/-- Settles O45: the frame is the launch's, and the invariant says where a final state stands. -/
theorem finalStateIsTheLaunchAtEnd : Obligations.FinalStateIsTheLaunchAtEnd := by
  intro l k t text running run final
  obtain ⟨ip, ri⟩ := ((Launch.start_inv text running).of_run run).finalAtEnd final
  obtain ⟨regs, rrbPr, same_text, endIp⟩ := sameFrame_of_run run
  change (⟨t.ip, t.ri, t.rrbPr, t.regs, t.mark, t.text, t.endIp⟩ : State) = _
  rw [ip, ri, rrbPr, regs, final, same_text, endIp]
  rfl

/-! ### A bundle of `nop`s -/

/-- A running state at a bundle of `nop`s that is not at `end_ip`, each predicate holding a value. -/
structure AtNops (s : State) (b : Bundle) : Prop where
  running : s.mark = .running
  aligned : s.ip.toNat % 16 = 0
  notEnd : s.ip ≠ s.endIp
  fetched : fetchBundle s.text s.ip = some b.encode
  wellFormed : b.wellFormed = true
  nops : ∀ k i, b.instrAt k = some i → i.isNop = true ∧ s.readPred i.qp ≠ .unwritten

/-- The same holds at another slot of the bundle. -/
theorem AtNops.goto {s : State} {b : Bundle} (h : AtNops s b) (k : SlotIx) : AtNops (s.goto s.ip k) b :=
  ⟨h.running, h.aligned, h.notEnd, h.fetched, h.wellFormed, h.nops⟩

/-- A step at a `nop` of the bundle is its advance. -/
theorem AtNops.step_eq {s : State} {b : Bundle} (h : AtNops s b) {i : Instr} (at_ri : b.instrAt s.ri = some i) :
    step s = .next (s.after i) := by
  have decoded : decodeSlot b.encode s.ri = .instr i := by
    rw [decodeEncodedBundle b s.ri h.wellFormed, at_ri]
  obtain ⟨nop, written⟩ := h.nops _ _ at_ri
  obtain ⟨v, holds⟩ : ∃ v, s.readPred i.qp = .val v := by
    cases pred : s.readPred i.qp with
    | unwritten => exact absurd pred written
    | val v => exact ⟨v, rfl⟩
  rw [step_instr h.running (fun at_end => h.notEnd at_end.1) h.aligned h.fetched decoded, exec_nop nop holds]

/-- A step at a `nop` before the last of the bundle goes to the next slot. -/
theorem AtNops.step_nextSlot {s : State} {b : Bundle} (h : AtNops s b) {k : SlotIx} {i : Instr}
    (at_k : b.instrAt k = some i) (not_last : ¬(i.unit = .x ∨ k = 2)) :
    step (s.goto s.ip k) = .next (s.goto s.ip (k + 1)) := by
  rw [(h.goto k).step_eq at_k, State.after_eq, State.goto_ri, if_neg not_last]
  rfl

/-- A step at the last `nop` of the bundle goes to the next bundle. -/
theorem AtNops.step_nextBundle {s : State} {b : Bundle} (h : AtNops s b) {k : SlotIx} {i : Instr}
    (at_k : b.instrAt k = some i) (last : i.unit = .x ∨ k = 2) :
    step (s.goto s.ip k) = .next (s.goto (s.ip + 16) 0) := by
  rw [(h.goto k).step_eq at_k, State.after_eq, State.goto_ri, if_pos last]
  rfl

/-- Settles O46: step by step through each shape of bundle. -/
theorem nopBundleFallsThrough : Obligations.NopBundleFallsThrough := by
  intro s b running aligned at_zero not_end fetched wellFormed nops
  have h : AtNops s b := ⟨running, aligned, not_end, fetched, wellFormed, nops⟩
  have start : s.goto s.ip 0 = s := by rw [State.goto, ← at_zero]
  have stop : s.goto (s.ip + 16) 0 = { s with ip := s.ip + 16 } := by rw [State.goto, ← at_zero]
  refine ⟨?_, fun f faulted => by rw [running] at faulted; cases faulted⟩
  rw [← stop]
  cases b with
  | three n stop i0 i1 i2 =>
    have first := h.step_nextSlot (k := 0) rfl (by simpa using unit_ne_x_of_three wellFormed 0)
    have second := h.step_nextSlot (k := 1) rfl (by simpa using unit_ne_x_of_three wellFormed 1)
    have third := h.step_nextBundle (k := 2) rfl (.inr rfl)
    rw [start] at first
    exact (run_next first 2).trans ((run_next second 1).trans (run_next third 0))
  | long stop i0 lx =>
    obtain ⟨unit_m, unit_x⟩ := Bundle.wellFormed_long.mp wellFormed
    have first := h.step_nextSlot (k := 0) rfl (by simp [unit_m])
    have second := h.step_nextBundle (k := 1) rfl (.inl unit_x)
    rw [start] at first
    exact (run_next first 1).trans (run_next second 0)

end Sys2Proof.Machine
end

section
/-!
PROOF. A table word placed where the step fetches (log entries 11 and 12): the bundle it is put in, what that decodes to,
and that the next step fetches it; from these, O30.
-/

namespace Sys2Proof

/-! The template and Slot 0 of a bundle that is given as a number (R61). -/

theorem bundleTemplate_ofNat (t v : Nat) : bundleTemplate (BitVec.ofNat 128 (t + 32 * v)) = BitVec.ofNat 5 t := by
  apply BitVec.eq_of_toNat_eq
  rw [bundleTemplate, BitVec.extractLsb'_toNat, BitVec.toNat_ofNat, BitVec.toNat_ofNat, Nat.shiftRight_zero]
  omega
theorem bundleSlot_zero_ofNat {t : Nat} (ht : t < 32) (v : Nat) :
    bundleSlot (BitVec.ofNat 128 (t + 32 * v)) 0 = BitVec.ofNat 41 v := by
  apply BitVec.eq_of_toNat_eq
  rw [bundleSlot, if_pos rfl, BitVec.extractLsb'_toNat, BitVec.toNat_ofNat, BitVec.toNat_ofNat,
    Nat.shiftRight_eq_div_pow]
  omega

/-- Slot 0 of such a bundle is decoded for the unit that the template gives it. -/
theorem decodeSlot_zero_ofNat {t : Nat} (ht : t < 32) (v : Nat) {u : UnitType}
    (unit : templateUnit (BitVec.ofNat 5 t) 0 = some u) (not_x : u ≠ .x) :
    decodeSlot (BitVec.ofNat 128 (t + 32 * v)) 0 = decodeAs u 0 (BitVec.ofNat 41 v) := by
  rw [← bundleTemplate_ofNat t v] at unit
  have not_l : u ≠ .l := fun l => absurd (((templateUnit_long _).1 0).mp (l ▸ unit)).1 (by decide)
  rw [decodeSlot_of_unit unit not_l not_x, bundleSlot_zero_ofNat ht]

/-- A table word's bundle decodes at Slot 0 to an instruction, or no M row matches the word (log entry 11). -/
theorem decodeSlot_tableBundle (nbits w : Nat) :
    (∃ i, decodeSlot (tableBundle nbits w) 0 = .instr i) ∨
      decodeSlot (tableBundle nbits w) 0 = .unknownEncoding .m (BitVec.ofNat 41 (w % 2 ^ nbits)) := by
  rw [tableBundle]
  split_ifs with only_b
  · obtain ⟨-, matched⟩ := Bool.and_eq_true_iff.mp only_b
    obtain ⟨i, matched⟩ := Option.isSome_iff_exists.mp matched
    refine .inl ⟨i, ?_⟩
    rw [decodeSlot_zero_ofNat (t := 0x16) (u := .b) (by decide) _ (by decide) (by decide), decodeAs_eq_instr, matched]
  · rw [decodeSlot_zero_ofNat (t := 0) (u := .m) (by decide) _ (by decide) (by decide), decodeAs]
    split
    · exact .inl ⟨_, rfl⟩
    · exact .inr rfl

namespace Machine

/-- A bundle address is one (R42). -/
theorem bundleAddress_aligned (a : Word) : (a.extractLsb' 4 60 ++ 0#4).toNat % 16 = 0 := by
  rw [BitVec.toNat_append, ← Nat.shiftLeft_add_eq_or_of_lt (0#4).isLt, Nat.shiftLeft_eq,
    show (0#4).toNat = 0 from rfl]
  omega

/-- The run does not end where a word is placed. -/
theorem State.withFetchWord_not_end (s : State) (nbits w : Nat) :
    ¬((s.withFetchWord nbits w).ip = (s.withFetchWord nbits w).endIp ∧ (s.withFetchWord nbits w).ri = 0) := by
  rintro ⟨at_end, -⟩
  rw [State.withFetchWord_ip, State.withFetchWord_endIp] at at_end
  split_ifs at at_end with was_end
  · exact absurd at_end (by simp)
  · exact was_end at_end.symm

/-- The next step fetches the placed word's bundle and decodes its Slot 0 (log entry 12). -/
theorem step_withFetchWord (s : State) (nbits w : Nat) :
    step (s.withFetchWord nbits w) =
      (s.withFetchWord nbits w).onDecoded (decodeSlot (tableBundle nbits w) 0) := by
  refine step_of_fetched rfl (s.withFetchWord_not_end nbits w) ?_ ?_
  · rw [State.withFetchWord_ip]
    exact bundleAddress_aligned s.ip
  · rw [State.withFetchWord_text, State.withFetchWord_ip]
    exact fetchBundle_memWrite _ _ _

/-- Settles O30: what the word's bundle decodes to is what `decodeTableWord` reads. -/
theorem placedWordIsRun : Obligations.PlacedWordIsRun := by
  intro s nbits w
  rw [step_withFetchWord, decodeTableWord]
  rcases decodeSlot_tableBundle nbits w with ⟨i, decoded⟩ | decoded <;> rw [decoded] <;> rfl

end Machine
end Sys2Proof
end

section
/-!
PROOF. The register files (spec/10_state.md rules R11, R13, R15, R16, R30, R31) and the platform's pipelines
(spec/70_reset_and_hazards.md rules R148, R149): reads after writes, uses, and what reset and a launch leave; from these,
O35 to O37, O39 and O47 to O49.
-/

namespace Sys2Proof.Machine

/-! ### The hardwired registers, and the place of the others -/

theorem State.readGR_of_ne_zero (s : State) {n : Fin 128} (h : n.val ≠ 0) :
    s.readGR n = s.regs.gr[n.val - 1]'(by omega) := dif_neg h

theorem State.readFR_of_two_le (s : State) {n : Fin 128} (h : 2 ≤ n.val) :
    s.readFR n = s.regs.fr[n.val - 2]'(by omega) := by
  rw [State.readFR, if_neg (by omega), dif_neg (by omega)]

/-- FR0 and FR1 hold one constant each in every state (R13). -/
theorem State.readFR_hardwired (s : State) {n : Fin 128} (h : n.val < 2) :
    s.readFR n = .val (if n.val = 0 then Config.fpPlusZero else Config.fpPlusOne) := by
  by_cases zero : n.val = 0
  · rw [State.readFR, if_pos zero, if_pos zero]
  · rw [State.readFR, if_neg zero, if_neg zero, dif_pos (by omega)]

/-- Only a register that is stored can be unwritten (R13, R30). -/
theorem State.two_le_of_readFR_unwritten {s : State} {n : Fin 128} (unwritten : s.readFR n = .unwritten) :
    2 ≤ n.val := by
  by_contra low
  rw [s.readFR_hardwired (not_le.mp low)] at unwritten
  cases unwritten

/-! ### Writes -/

/-- Settles O35: GR1 to GR127 are a file of their own, one place down. -/
theorem generalRegisterZero : Obligations.GeneralRegisterZero := by
  refine fun s v => ⟨rfl, rfl, fun n hn => ?_⟩
  have hn : n.val ≠ 0 := Fin.val_ne_of_ne hn
  refine ⟨_, dif_neg hn, fun n' => ?_, rfl⟩
  by_cases zero : n' = 0
  · subst zero
    rw [if_neg (by omega)]
    rfl
  · have hn' : n'.val ≠ 0 := Fin.val_ne_of_ne zero
    have same_place : n.val - 1 = n'.val - 1 ↔ n' = n := by omega
    simp only [State.readGR_of_ne_zero _ hn', Vector.getElem_set, same_place]

/-- Settles O36: FR2 to FR127 are a file of their own, two places down. -/
theorem floatingRegistersZeroAndOne : Obligations.FloatingRegistersZeroAndOne := by
  refine fun s s' v => ⟨⟨_, _, rfl, rfl, rfl, rfl⟩, fun n hn => dif_pos hn, fun n hn => ?_⟩
  refine ⟨_, dif_neg (by omega), fun n' => ?_, rfl⟩
  by_cases low : n'.val < 2
  · rw [if_neg (by omega), State.readFR_hardwired _ low, State.readFR_hardwired _ low]
  · have hn' : 2 ≤ n'.val := by omega
    have same_place : n.val - 2 = n'.val - 2 ↔ n' = n := by omega
    simp only [State.readFR_of_two_le _ hn', Vector.getElem_set, same_place]

/-- Settles O37: in these files each register has the place of its own number. -/
theorem branchAndApplicationRegisters : Obligations.BranchAndApplicationRegisters := by
  have read_back {k : Nat} (file : Vector (Held Word) k) (v : Held Word) (n n' : Fin k) :
      (file.set n.val v)[n'.val] = if n' = n then v else file[n'.val] := by
    simp only [Vector.getElem_set, eq_comm (a := n.val), Fin.val_inj]
  exact fun s v => ⟨fun n => ⟨_, rfl, read_back _ _ n, rfl⟩, fun n => ⟨_, rfl, read_back _ _ n, rfl⟩,
    fun n => ⟨_, rfl, read_back _ _ n, rfl⟩⟩

/-! ### Uses -/

/-- The use of a register is the fault of R30 where it holds no value, and else goes on with its value. -/
theorem Held.use_spec {α : Type} (h : Held α) (name : RegName) (s : State) (k : α → Result) :
    (h = .unwritten →
        h.use name s k = .next { s with mark := .faulted (.unwrittenRegister name s.ip s.ri) }) ∧
      ∀ v, h = .val v → h.use name s k = k v := by
  constructor
  · rintro rfl; rfl
  · rintro v rfl; rfl

/-- Settles O48: every read by an instruction is a `use`, and the hardwired registers hold a value. -/
theorem unwrittenRegisterReadFaults : Obligations.UnwrittenRegisterReadFaults := by
  intro s k kf
  refine ⟨fun n => ?general, fun n => ?floating, fun n => Held.use_spec _ _ s k, fun n => Held.use_spec _ _ s k,
    fun n => Held.use_spec _ _ s k⟩
  case general =>
    obtain ⟨faults, goes_on⟩ := Held.use_spec (s.readGR n) (.gr n) s k
    refine ⟨fun unwritten => ⟨?_, faults unwritten⟩, goes_on⟩
    rintro rfl
    cases unwritten
  case floating =>
    obtain ⟨faults, goes_on⟩ := Held.use_spec (s.readFR n) (.fr n) s kf
    exact ⟨fun unwritten => ⟨State.two_le_of_readFR_unwritten unwritten, faults unwritten⟩, goes_on⟩

/-! ### Reset and launch -/

/-! Where a file is one value repeated, each register that it stores reads that value. -/

theorem State.readGR_of_replicate {s : State} {v : Held Word} (file : s.regs.gr = Vector.replicate 127 v)
    {n : Fin 128} (hn : n ≠ 0) : s.readGR n = v := by
  simp only [s.readGR_of_ne_zero (Fin.val_ne_of_ne hn), file, Vector.getElem_replicate]
theorem State.readFR_of_replicate {s : State} {v : Held FpWord} (file : s.regs.fr = Vector.replicate 126 v)
    {n : Fin 128} (hn : 2 ≤ n.val) : s.readFR n = v := by
  simp only [s.readFR_of_two_le hn, file, Vector.getElem_replicate]
theorem State.readPR_of_replicate {s : State} {v : Held Bool} (file : s.regs.pr = Vector.replicate 63 v)
    {n : Fin 64} (hn : n ≠ 0) : s.readPR n = v := by
  simp only [s.readPR_of_ne_zero (Fin.val_ne_of_ne hn), file, Vector.getElem_replicate]

/-- Settles O39: every file at reset is one value repeated. -/
theorem resetLeaves : Obligations.ResetLeaves := by
  refine ⟨rfl, rfl, rfl, rfl, rfl, rfl, fun n => ?general, fun n => State.readFR_of_replicate rfl,
    fun n => State.readPR_of_replicate rfl, fun n => Vector.getElem_replicate _, fun n => Vector.getElem_replicate _,
    fun n => Vector.getElem_replicate _, rfl, rfl, rfl, rfl, rfl, rfl⟩
  case general =>
    by_cases zero : n = 0
    · rw [zero]; rfl
    · exact State.readGR_of_replicate rfl zero

/-- Settles O49: every file of a launch that names no premise is `unwritten` repeated. -/
theorem launchWithNoPremise : Obligations.LaunchWithNoPremise := by
  intro m entry fin
  refine ⟨rfl, rfl, rfl, rfl, rfl, fun n => ?general,
    fun n => ⟨State.two_le_of_readFR_unwritten, State.readFR_of_replicate rfl⟩, fun n => ?predicate,
    fun n => Vector.getElem_replicate _, fun n => Vector.getElem_replicate _, fun n => Vector.getElem_replicate _⟩
  case general =>
    split_ifs with zero
    · rw [zero]; rfl
    · exact State.readGR_of_replicate rfl zero
  case predicate =>
    split_ifs with zero
    · rw [zero]; rfl
    · exact State.readPR_of_replicate rfl zero

/-! ### Pipelines -/

/-- Settles O47: the two lists of stages, by variant. -/
theorem pipelinesAgree : Obligations.PipelinesAgree := by
  refine ⟨by decide, fun v => ?_⟩
  cases v <;> decide

end Sys2Proof.Machine
end
